-- ==== Sys2Proof/Word.lean ====
section
/-! DEFINITION. The word types of the core: what the spec treats as bits, and the two kinds of index. -/

namespace Sys2Proof

/-- A bus word and a command word: 32 bits (R9 `CW`, R44, R60). -/
abbrev Word := BitVec 32

/-- A stored field element: 9 bits (R9 `FW`, R20). Canonical values are 0..256. -/
abbrev Elem := BitVec 9

/-- The 6-bit opcode field of a command word (R61). -/
abbrev Opcode := BitVec 6

/-- The index of a field register F0..F7; every value is legal (R21, R62). -/
abbrev Reg := Fin 8

/-- The index of an entry of C, X or Y; every 8-bit value names an existing entry (R41). -/
abbrev Idx := Fin 256

end Sys2Proof
end

