-- ==== Sys2Proof/Config.lean ====
section
/-! DEFINITION. What the hardware fixes (R8, R9, R30), its open parameter BASE (R40), and the free values:
constants with no body, of which nothing can be proved but what holds for every value. -/

namespace Sys2Proof

/-- The modulus P, a prime; no command or bus write changes it (R8). -/
def Config.P : Nat := 257

/-- The depth NB of each of the buffers C, X and Y (R9). -/
def Config.NB : Nat := 256

/-- NMAX, the largest share count, and TMAX, the largest threshold (R9): both 255. -/
def Config.NMAX : Nat := 255

/-- The constant the ID register reads: modulus 0x0101 in the low half, revision 7 in the high half (R30). -/
def Config.id : Word := 0x00070101#32

/-- The size in bytes of the bus window (R40). -/
def Config.windowBytes : Nat := 4096

/-- OPEN parameter: which 4096-byte page of the host bus the window is. Every claim holds for every page
(R9 `BASE`, R40; 93_implementation_defined.md U8; log entry 7). -/
opaque Config.basePage : Nat

/-- BASE, the byte address at which the window starts; a multiple of 4096 by its form (R40). -/
def Config.base : Nat := Config.windowBytes * Config.basePage

/-- FREE VALUE: what the `n`-th bus read of a field-typed location made while BUSY = 1 returns
(R186, U4; log entry 3). -/
opaque Config.busyRead : Nat → Word

/-- FREE VALUE: what a search for an inverse gives for a number that has none. R15 leaves `inv(0)` undefined, and
every command that would need it raises an error first, so no run from reset reaches it (log entry 15). -/
opaque Config.noInverse : Nat → Nat

end Sys2Proof
end

