-- ==== Sys2Proof/Syntax.lean ====
section
/-! DEFINITION. The commands of the core (30_encoding.md R65), the host's pseudo-instructions (R70), and what a
decoder can answer (R66, R67). -/

namespace Sys2Proof

/-- One constructor per row of the opcode map (R65). Registers and buffer indexes are bounded by their types;
immediates, counts and window bases are numbers, and WellFormed holds the ranges R69 gives them. -/
inductive Instr where
  /-- NOP (R144). -/
  | nop
  /-- `LDI fd, imm` (R120). -/
  | ldi (rd : Reg) (imm : Nat)
  /-- `MOV fd, fs` (R121). -/
  | mov (rd rs1 : Reg)
  /-- `MADD fd, fa, fb` (R84). -/
  | madd (rd rs1 rs2 : Reg)
  /-- `MSUB fd, fa, fb` (R85). -/
  | msub (rd rs1 rs2 : Reg)
  /-- `MMUL fd, fa, fb` (R86). -/
  | mmul (rd rs1 rs2 : Reg)
  /-- `MINV fd, fs` (R88). -/
  | minv (rd rs1 : Reg)
  /-- `MPOW fd, fb, fe` (R90). -/
  | mpow (rd rs1 rs2 : Reg)
  /-- `MPOWI fd, fb, e` (R92). -/
  | mpowi (rd rs1 : Reg) (e : Nat)
  /-- `PEVAL fd, fx, t` (R100). -/
  | peval (rd rs1 : Reg) (t : Nat)
  /-- `SPLIT n, t` (R102). -/
  | split (n t : Nat)
  /-- `LAGR0 fd, base, count` (R110). -/
  | lagr0 (rd : Reg) (base count : Nat)
  /-- `CST idx, fs` (R122). -/
  | cst (idx : Idx) (rs1 : Reg)
  /-- `CLD fd, idx` (R123). -/
  | cld (rd : Reg) (idx : Idx)
  /-- `PST idx, fx, fy` (R124). -/
  | pst (idx : Idx) (rs1 rs2 : Reg)
  /-- `PLDX fd, idx` (R125). -/
  | pldx (rd : Reg) (idx : Idx)
  /-- `PLDY fd, idx` (R126). -/
  | pldy (rd : Reg) (idx : Idx)
  /-- CLRERR (R146). -/
  | clrerr
deriving DecidableEq, Repr

/-- The pseudo-instructions of R70. -/
inductive Pseudo where
  /-- `MSQR fd, fs`. -/
  | msqr (fd fs : Reg)
  /-- `MCLR fd`. -/
  | mclr (fd : Reg)
  /-- `MNEG fd, fs`. -/
  | mneg (fd fs : Reg)
  /-- `MDIV fd, fa, fb, ft`. -/
  | mdiv (fd fa fb ft : Reg)
deriving DecidableEq, Repr

/-- The two ways a command word is illegal (R67). Both complete with ILLEGAL_COMMAND. -/
inductive Illegal where
  /-- The opcode is not one of the 18 of R65. -/
  | reservedOpcode
  /-- The opcode is one of the 18, and a bit outside the row's fields is 1. -/
  | reservedBit
deriving DecidableEq, Repr

/-- What decoding a word gives: total on all 2^32 words (R66). -/
inductive Decoded where
  | command (i : Instr)
  | illegal (why : Illegal)
deriving DecidableEq, Repr

end Sys2Proof
end

