-- ==== Sys2Proof/WellFormed.lean ====
section
/-! DEFINITION. Which commands can be written at all: the operand ranges of the assembler syntax (R69). -/

namespace Sys2Proof

/-- Every operand lies in the range R69 gives it, so that it fits its field (R61). An operand outside its range
does not assemble. -/
def Instr.wellFormed : Instr → Bool
  | .nop => true
  | .ldi _ imm => decide (imm ≤ 511)
  | .mov _ _ => true
  | .madd _ _ _ => true
  | .msub _ _ _ => true
  | .mmul _ _ _ => true
  | .minv _ _ => true
  | .mpow _ _ _ => true
  | .mpowi _ _ e => decide (e ≤ 65535)
  | .peval _ _ t => decide (t ≤ 255)
  | .split n t => decide (n ≤ 255) && decide (t ≤ 255)
  | .lagr0 _ base count => decide (base ≤ 255) && decide (count ≤ 255)
  | .cst _ _ => true
  | .cld _ _ => true
  | .pst _ _ _ => true
  | .pldx _ _ => true
  | .pldy _ _ => true
  | .clrerr => true

end Sys2Proof
end

