-- ==== Sys2Proof/Decode.lean ====
section
/-! DEFINITION. The decoder (R61, R65, R66, R67), the encoder (R64, R65), and the expansion of the
pseudo-instructions (R70). -/

namespace Sys2Proof

/-! ### The fields of a command word (R61) -/

/-- `op`, bits 31:26. -/
def opcodeOf (w : Word) : Opcode := w.extractLsb' 26 6

/-- `rd`, bits 25:23. -/
def rdOf (w : Word) : Reg := (w.extractLsb' 23 3).toFin

/-- `rs1`, bits 22:20. -/
def rs1Of (w : Word) : Reg := (w.extractLsb' 20 3).toFin

/-- `rs2`, bits 19:17. -/
def rs2Of (w : Word) : Reg := (w.extractLsb' 17 3).toFin

/-- `imm9`, bits 8:0, zero-extended (R63). -/
def imm9Of (w : Word) : Nat := (w.extractLsb' 0 9).toNat

/-- `imm16`, bits 15:0, unsigned (R63). -/
def imm16Of (w : Word) : Nat := (w.extractLsb' 0 16).toNat

/-- `a8`, bits 15:8, unsigned (R63). -/
def a8Of (w : Word) : Nat := (w.extractLsb' 8 8).toNat

/-- `b8`, bits 7:0, as a count (R63). -/
def b8Of (w : Word) : Nat := (w.extractLsb' 0 8).toNat

/-- `b8`, bits 7:0, as a buffer index (R63). -/
def idxOf (w : Word) : Idx := (w.extractLsb' 0 8).toFin

/-! ### The opcode map (R65) -/

/-- One row of the opcode map: a word `w` selects it when `w &&& mask = pattern`. -/
structure Row where
  op : Opcode
  pattern : Word
  mask : Word
  build : Word → Instr

/-- The opcode map of R65, row by row. -/
def opcodeMap : List Row :=
  [ ⟨0x00#6, 0x00000000#32, 0xFFFFFFFF#32, fun _ => .nop⟩,
    ⟨0x01#6, 0x04000000#32, 0xFC7FFE00#32, fun w => .ldi (rdOf w) (imm9Of w)⟩,
    ⟨0x02#6, 0x08000000#32, 0xFC0FFFFF#32, fun w => .mov (rdOf w) (rs1Of w)⟩,
    ⟨0x03#6, 0x0C000000#32, 0xFC01FFFF#32, fun w => .madd (rdOf w) (rs1Of w) (rs2Of w)⟩,
    ⟨0x04#6, 0x10000000#32, 0xFC01FFFF#32, fun w => .msub (rdOf w) (rs1Of w) (rs2Of w)⟩,
    ⟨0x05#6, 0x14000000#32, 0xFC01FFFF#32, fun w => .mmul (rdOf w) (rs1Of w) (rs2Of w)⟩,
    ⟨0x06#6, 0x18000000#32, 0xFC0FFFFF#32, fun w => .minv (rdOf w) (rs1Of w)⟩,
    ⟨0x07#6, 0x1C000000#32, 0xFC01FFFF#32, fun w => .mpow (rdOf w) (rs1Of w) (rs2Of w)⟩,
    ⟨0x08#6, 0x20000000#32, 0xFC0F0000#32, fun w => .mpowi (rdOf w) (rs1Of w) (imm16Of w)⟩,
    ⟨0x10#6, 0x40000000#32, 0xFC0FFF00#32, fun w => .peval (rdOf w) (rs1Of w) (b8Of w)⟩,
    ⟨0x11#6, 0x44000000#32, 0xFFFF0000#32, fun w => .split (a8Of w) (b8Of w)⟩,
    ⟨0x12#6, 0x48000000#32, 0xFC7F0000#32, fun w => .lagr0 (rdOf w) (a8Of w) (b8Of w)⟩,
    ⟨0x18#6, 0x60000000#32, 0xFF8FFF00#32, fun w => .cst (idxOf w) (rs1Of w)⟩,
    ⟨0x19#6, 0x64000000#32, 0xFC7FFF00#32, fun w => .cld (rdOf w) (idxOf w)⟩,
    ⟨0x1A#6, 0x68000000#32, 0xFF81FF00#32, fun w => .pst (idxOf w) (rs1Of w) (rs2Of w)⟩,
    ⟨0x1B#6, 0x6C000000#32, 0xFC7FFF00#32, fun w => .pldx (rdOf w) (idxOf w)⟩,
    ⟨0x1C#6, 0x70000000#32, 0xFC7FFF00#32, fun w => .pldy (rdOf w) (idxOf w)⟩,
    ⟨0x3F#6, 0xFC000000#32, 0xFFFFFFFF#32, fun _ => .clrerr⟩ ]

/-- Decoding (R66): the row of the word's opcode, if the word has no bit outside that row's fields (R67). -/
def decode (w : Word) : Decoded :=
  match opcodeMap.find? (fun r => r.op == opcodeOf w) with
  | none => .illegal .reservedOpcode
  | some r => if w &&& r.mask = r.pattern then .command (r.build w) else .illegal .reservedBit

/-- The host's question: the instruction read from the `nbits` bits of `w`, every bit above them 0. The table gives
every row 32 bits, one command word (R60). -/
def decodeTableWord (nbits w : Nat) : Option Instr :=
  match decode (BitVec.ofNat 32 (w % 2 ^ nbits)) with
  | .command i => some i
  | .illegal _ => none

/-! ### The encoder (R64) -/

/-- The opcode of each command (R65). -/
def Instr.opcode : Instr → Opcode
  | .nop => 0x00#6
  | .ldi _ _ => 0x01#6
  | .mov _ _ => 0x02#6
  | .madd _ _ _ => 0x03#6
  | .msub _ _ _ => 0x04#6
  | .mmul _ _ _ => 0x05#6
  | .minv _ _ => 0x06#6
  | .mpow _ _ _ => 0x07#6
  | .mpowi _ _ _ => 0x08#6
  | .peval _ _ _ => 0x10#6
  | .split _ _ => 0x11#6
  | .lagr0 _ _ _ => 0x12#6
  | .cst _ _ => 0x18#6
  | .cld _ _ => 0x19#6
  | .pst _ _ _ => 0x1A#6
  | .pldx _ _ => 0x1B#6
  | .pldy _ _ => 0x1C#6
  | .clrerr => 0x3F#6

/-- The bit ranges every format of R64 shares: op, rd, rs1, rs2, bit 16 (always 0), bits 15:0. A register field a
format does not use is 0. -/
def packWord (op : Opcode) (rd rs1 rs2 : Reg) (low : BitVec 16) : Word :=
  op ++ (BitVec.ofFin rd : BitVec 3) ++ (BitVec.ofFin rs1 : BitVec 3) ++ (BitVec.ofFin rs2 : BitVec 3) ++ 0#1 ++ low

/-- Bits 15:0 as the two byte fields `a8` and `b8`. -/
def packBytes (a b : Nat) : BitVec 16 := BitVec.ofNat 8 a ++ BitVec.ofNat 8 b

/-- The word of a command (R64, R65); meant for well-formed commands. -/
def encode (i : Instr) : Word :=
  match i with
  | .nop => packWord i.opcode 0 0 0 0#16
  | .ldi rd imm => packWord i.opcode rd 0 0 (BitVec.ofNat 16 imm)
  | .mov rd rs1 => packWord i.opcode rd rs1 0 0#16
  | .madd rd rs1 rs2 => packWord i.opcode rd rs1 rs2 0#16
  | .msub rd rs1 rs2 => packWord i.opcode rd rs1 rs2 0#16
  | .mmul rd rs1 rs2 => packWord i.opcode rd rs1 rs2 0#16
  | .minv rd rs1 => packWord i.opcode rd rs1 0 0#16
  | .mpow rd rs1 rs2 => packWord i.opcode rd rs1 rs2 0#16
  | .mpowi rd rs1 e => packWord i.opcode rd rs1 0 (BitVec.ofNat 16 e)
  | .peval rd rs1 t => packWord i.opcode rd rs1 0 (packBytes 0 t)
  | .split n t => packWord i.opcode 0 0 0 (packBytes n t)
  | .lagr0 rd base count => packWord i.opcode rd 0 0 (packBytes base count)
  | .cst idx rs1 => packWord i.opcode 0 rs1 0 (packBytes 0 idx)
  | .cld rd idx => packWord i.opcode rd 0 0 (packBytes 0 idx)
  | .pst idx rs1 rs2 => packWord i.opcode 0 rs1 rs2 (packBytes 0 idx)
  | .pldx rd idx => packWord i.opcode rd 0 0 (packBytes 0 idx)
  | .pldy rd idx => packWord i.opcode rd 0 0 (packBytes 0 idx)
  | .clrerr => packWord i.opcode 0 0 0 0#16

/-- Assembling one command: an operand outside its range is refused, not truncated (R69). -/
def assemble (i : Instr) : Option Word := if i.wellFormed then some (encode i) else none

/-! ### Pseudo-instructions -/

/-- The expansions of R70; `none` where the assembler refuses the registers. -/
def expand : Pseudo → Option (List Instr)
  | .msqr fd fs => some [.mmul fd fs fs]
  | .mclr fd => some [.ldi fd 0]
  | .mneg fd fs => if fd = fs then none else some [.ldi fd 0, .msub fd fd fs]
  | .mdiv fd fa fb ft => if ft = fa then none else some [.minv ft fb, .mmul fd fa ft]

end Sys2Proof
end

