-- ==== Sys2Proof/Machine/State.lean ====
section
/-! DEFINITION. The state of the core (10_state.md R20-R36) with the host's coming actions beside it, the reasons a
step can stop, and the state after reset (R36, R181). Plain data throughout. -/

namespace Sys2Proof.Machine

/-- The values of STATUS.ERRCODE: codes 7 to 15 are never produced (R27, U11). -/
inductive ErrCode where
  /-- 0: no error is recorded. -/
  | none
  /-- 1: raised by PEVAL, SPLIT and LAGR0. -/
  | invalidParameters
  /-- 2: raised by LAGR0. -/
  | invalidShareSet
  /-- 3: raised by MINV. -/
  | divisionByZero
  /-- 4: raised by LAGR0. -/
  | emptyInput
  /-- 5: raised by an accepted illegal word. -/
  | illegalCommand
  /-- 6: raised by a host write while a command is in flight. -/
  | busyViolation
deriving DecidableEq, Repr

/-- The three operand buffers (R32, R33). -/
inductive Buf where
  | c
  | x
  | y
deriving DecidableEq, Repr

/-- The width of a bus access. Only `word` is defined (R44). -/
inductive Size where
  | byte
  | half
  | word
deriving DecidableEq, Repr

/-- What the host, or the passing of a moment without a transaction, can do to the core (R7, R50, R180). -/
inductive Event where
  /-- The host makes no transaction at this moment, and the core takes its completion step if a command is in flight.
  Where these stand among the transactions is the open latency (R143, R156; log entry 1). -/
  | coreTurn
  /-- A bus read at a byte address. -/
  | read (addr : Nat) (size : Size)
  /-- A bus write at a byte address, with its four byte enables and its data. -/
  | write (addr : Nat) (size : Size) (enables : BitVec 4) (data : Word)
  /-- The reset line takes this level: true is asserted (R180). -/
  | rst (level : Bool)
deriving DecidableEq, Repr

/-- The written entries of one buffer: (index, value), indexes strictly rising and below 256. An entry not listed has
not been written since reset and has no value (R35; log entries 4 and 6). -/
abbrev Memory := List (Nat × Elem)

/-- The core's state, the level of its reset input, and the host's side of the bus. -/
structure State where
  /-- The field registers F0..F7 (R21). -/
  f : Vector Elem 8
  /-- STATUS.BUSY (R25). -/
  busy : Bool
  /-- STATUS.ERR (R26). -/
  err : Bool
  /-- STATUS.ERRCODE (R27). -/
  errcode : ErrCode
  /-- STATUS.ERROP (R28). -/
  errop : Opcode
  /-- The in-flight latch; meaningless while BUSY = 0 (R34). -/
  latch : Word
  /-- CMDCNT (R31). -/
  cmdcnt : Word
  /-- The coefficient buffer C (R32). -/
  bufC : Memory
  /-- The pair buffer X (R33). -/
  bufX : Memory
  /-- The pair buffer Y (R33). -/
  bufY : Memory
  /-- The level of the `rst` input, true while asserted (R180). -/
  rst : Bool
  /-- MODEL'S OWN: the host's coming actions, the next one first (log entry 1). -/
  inputs : List Event
  /-- MODEL'S OWN: the word the host's last bus read returned (log entry 8). -/
  rdata : Word
  /-- MODEL'S OWN: how many free draws have been made (log entry 3). -/
  draws : Nat
deriving DecidableEq, Repr

/-- Why the machine stops with a fault. -/
inductive Fault where
  /-- A command or bus read reads an entry that has not been written since reset, whose value is unspecified. Raised by
  PEVAL, SPLIT, LAGR0, CLD, PLDX, PLDY and by a bus read while BUSY = 0, with the first such entry in reading order.
  Safe: the chip returns some value where the model stops (R35, U3). -/
  | unwrittenEntry (b : Buf) (k : Nat)
deriving DecidableEq, Repr

/-- Why a step has no meaning. -/
inductive Refusal where
  /-- An instruction whose meaning is not modelled yet; no arm of exec answers it. Safe: nothing is claimed. -/
  | notModelled (mnemonic : String)
  /-- A bus access whose offset is not a multiple of 4; raised by a host transaction. Safe: the run has no meaning
  (R43, U5). -/
  | misalignedAccess
  /-- A byte or halfword access, or a write with partial byte enables; raised by a host transaction. Safe: the run has
  no meaning (R44, U5). -/
  | subWordAccess
  /-- A bus transaction while reset is asserted; raised by a host transaction. Safe: the run has no meaning (R181, U7). -/
  | busDuringReset
deriving DecidableEq, Repr

/-- The machine right after reset (R36, R181): registers, STATUS and CMDCNT 0, no entry written, nothing in flight. The
latch's word, the released reset line and the model's own three fields are named in the log (entries 1, 3, 5, 8, 9). -/
def State.reset : State where
  f := Vector.replicate 8 0#9
  busy := false
  err := false
  errcode := .none
  errop := 0#6
  latch := 0#32
  cmdcnt := 0#32
  bufC := []
  bufX := []
  bufY := []
  rst := false
  inputs := []
  rdata := 0#32
  draws := 0

end Sys2Proof.Machine
end

