-- ==== Sys2Proof/Machine/Ops.lean ====
section
/-! DEFINITION. The named operations on registers and buffers, recording an error (the core's only form of taking an
exception) and clearing it, the two ways a command ends, and reset. -/

namespace Sys2Proof.Machine

/-! ### One buffer -/

/-- Entry `k` of a buffer; `none` when it has not been written since reset (R35). -/
def Memory.read (k : Nat) : Memory → Option Elem
  | [] => none
  | (a, v) :: m => if a = k then some v else Memory.read k m

/-- Write entry `k`, keeping the entries in rising order; the entry's "written since reset" bit is set (R35). -/
def Memory.write (k : Nat) (v : Elem) : Memory → Memory
  | [] => [(k, v)]
  | (a, u) :: m => if k < a then (k, v) :: (a, u) :: m else if k = a then (k, v) :: m else (a, u) :: Memory.write k v m

/-- Write a run of entries from entry `k` upward. -/
def Memory.writeFrom (k : Nat) : List Elem → Memory → Memory
  | [], m => m
  | v :: vs, m => Memory.writeFrom (k + 1) vs (Memory.write k v m)

/-- The entries lie at strictly rising indexes from `lo` upward, each below 256. -/
def Memory.wfFrom : Nat → Memory → Bool
  | _, [] => true
  | lo, (a, _) :: m => decide (lo ≤ a) && decide (a < Config.NB) && Memory.wfFrom (a + 1) m

/-- The canonical form of a buffer: indexes strictly rising and below 256. -/
def Memory.wf (m : Memory) : Bool := Memory.wfFrom 0 m

/-! ### Registers and buffers of the state -/

/-- `F[i]` (R12). -/
def State.getF (s : State) (i : Reg) : Elem := s.f[i]

/-- `F[i] <- v` (R12). -/
def State.setF (s : State) (i : Reg) (v : Elem) : State := { s with f := s.f.set i v }

/-- A whole buffer by its name. -/
def State.buf (s : State) : Buf → Memory
  | .c => s.bufC
  | .x => s.bufX
  | .y => s.bufY

/-- Replace a whole buffer. -/
def State.setBuf (s : State) (b : Buf) (m : Memory) : State :=
  match b with
  | .c => { s with bufC := m }
  | .x => { s with bufX := m }
  | .y => { s with bufY := m }

/-- `C[k]`, `X[k]` or `Y[k]` (R12); `none` when not written since reset (R35). -/
def State.entry (s : State) (b : Buf) (k : Nat) : Option Elem := (s.buf b).read k

/-- `C[k] <- v`, `X[k] <- v` or `Y[k] <- v` (R12). -/
def State.setEntry (s : State) (b : Buf) (k : Nat) (v : Elem) : State := s.setBuf b ((s.buf b).write k v)

/-! ### Errors (R152, R159) -/

/-- Recording error `e` for the command with opcode `op`: the first error wins, and nothing else changes (R152). -/
def State.recordError (s : State) (e : ErrCode) (op : Opcode) : State :=
  if s.err then s else { s with err := true, errcode := e, errop := op }

/-- Clearing the record, the only way back from an error beside reset (R146, R159). -/
def State.clearError (s : State) : State := { s with err := false, errcode := .none, errop := 0#6 }

/-! ### The two ways a command ends (R142) -/

/-- Success, after the results are written: CMDCNT counts the command modulo 2^32, and BUSY falls. -/
def State.succeed (s : State) : State := { s with cmdcnt := s.cmdcnt + 1#32, busy := false }

/-- Failure with error `e`: recorded unless a record is held; no result, no count; BUSY falls. -/
def State.fail (s : State) (e : ErrCode) (op : Opcode) : State := { s.recordError e op with busy := false }

/-- What a command or a step answers. -/
abbrev Result := Host.Outcome State Fault Refusal

/-- The end of a command whose one result goes to `F[rd]` (R13, R142). -/
def State.finish (s : State) (rd : Reg) (v : Elem) : Result := .next (s.setF rd v).succeed

/-- The end of a command that raises `e` (R13, R142, R152). -/
def State.raise (s : State) (e : ErrCode) (op : Opcode) : Result := .next (s.fail e op)

/-! ### Reset (R36, R180, R181) -/

/-- The reset line is at `level` and reset acts: every piece of the core's state takes its reset value, and a command in
flight is abandoned. The host's own side is not the core's to reset (log entry 9). -/
def State.applyReset (s : State) (level : Bool) : State :=
  { State.reset with rst := level, inputs := s.inputs, rdata := s.rdata, draws := s.draws }

/-- The reset line takes a level: reset acts while it is asserted and when it is released (R180). -/
def State.setRst (s : State) (level : Bool) : State :=
  if level || s.rst then s.applyReset level else s

end Sys2Proof.Machine
end

