-- ==== Sys2Proof/Machine/Flags.lean ====
section
/-! DEFINITION. The STATUS register as a word (R24) and the numbers of its error codes (R27). The core has no arithmetic
flags, condition codes or predicates (R23): BUSY and ERR are its only flags, and Ops.lean sets and clears them. -/

namespace Sys2Proof.Machine

/-- The code of each error (R27). -/
def ErrCode.code : ErrCode → BitVec 4
  | .none => 0#4
  | .invalidParameters => 1#4
  | .invalidShareSet => 2#4
  | .divisionByZero => 3#4
  | .emptyInput => 4#4
  | .illegalCommand => 5#4
  | .busyViolation => 6#4

/-- STATUS as the bus reads it: ERROP in 13:8, ERRCODE in 7:4, ERR in 1, BUSY in 0, the rest 0 (R24). -/
def State.statusWord (s : State) : Word :=
  0#18 ++ s.errop ++ s.errcode.code ++ 0#2 ++ BitVec.ofBool s.err ++ BitVec.ofBool s.busy

end Sys2Proof.Machine
end

