-- ==== Sys2Proof/Machine/Arith.lean ====
section
/-! DEFINITION. The functions of 00_scope.md section 5: modP, powmod, inv, horner, lagrange0. Exact over the integers,
narrowed once at the end (R80). -/

namespace Sys2Proof.Machine

/-- `modP(v)`: the residue of the integer `v` in 0..256 (R11). -/
def modP (v : Int) : Nat := (v % (Config.P : Int)).toNat

/-- `powmod(b, e)`: 1 when `e` is 0, else `modP(b^e)` (R14). -/
def powmod (b e : Nat) : Nat := if e = 0 then 1 else b ^ e % Config.P

/-- `inv(a)`: the `v` in 1..256 with `modP(a * v) = 1` (R15), by its defining property; the source's algorithm is not
normative (R19). A number with no inverse gives a free value (log entry 15). -/
def inv (a : Nat) : Nat :=
  match (List.range' 1 256).find? (fun v => a * v % Config.P == 1) with
  | some v => v
  | none => Config.noInverse a

/-- `horner(t, x)` over the coefficient list C[0..t-1] (R16): start at the last coefficient, then `y * x + C[k]` downward. -/
def horner : List Nat → Nat → Nat
  | [], _ => 0
  | [c], _ => c
  | c :: d :: cs, x => modP ((horner (d :: cs) x * x + c : Nat) : Int)

/-- The numerator of term `i`: the product over `j ≠ i` of `-x_j` (R17). -/
def lagNum (xs : List Nat) (i : Nat) : Nat :=
  xs.zipIdx.foldl (fun num p => if p.2 = i then num else modP ((num : Int) * modP (0 - (p.1 : Int)))) 1

/-- The denominator of term `i`, whose x-coordinate is `xi`: the product over `j ≠ i` of `x_i - x_j` (R17). -/
def lagDen (xs : List Nat) (xi i : Nat) : Nat :=
  xs.zipIdx.foldl (fun den p => if p.2 = i then den else modP ((den : Int) * modP ((xi : Int) - (p.1 : Int)))) 1

/-- `lagrange0` over a window of pairs, given as its x and its y values in entry order (R17). -/
def lagrange0 (xs ys : List Nat) : Nat :=
  (xs.zip ys).zipIdx.foldl
    (fun acc p => modP ((acc : Int) + p.1.2 * lagNum xs p.2 * inv (lagDen xs p.1.1 p.2))) 0

end Sys2Proof.Machine
end

