-- ==== Sys2Proof/Machine/Operands.lean ====
section
/-! DEFINITION. Every operand form of the commands: a register as a number, a result narrowed to a register, the
immediates (R63), one buffer entry, and a run of entries (R41). -/

namespace Sys2Proof.Machine

/-- A register operand, read as an unsigned number (R10, R12). -/
def State.num (s : State) (r : Reg) : Nat := (s.getF r).toNat

/-- A result as a 9-bit value to be stored (R20). -/
def toElem (v : Nat) : Elem := BitVec.ofNat 9 v

/-- The operand `imm9` assembles to: zero-extended, then reduced (R63). -/
def immOperand (imm : Nat) : Nat := modP (imm : Int)

/-- The value a bus write stores in a field-typed location: the low nine bits, reduced (R47). -/
def busOperand (w : Word) : Elem := toElem (modP ((w.extractLsb' 0 9).toNat : Int))

/-- One buffer entry as an operand; an entry never written stops the command (R35). -/
def State.readEntry (s : State) (b : Buf) (k : Nat) : Except Fault Elem :=
  match s.entry b k with
  | some v => .ok v
  | none => .error (.unwrittenEntry b k)

/-- The run of `n` entries from entry `k` as numbers; the first entry never written stops the command
(R35, R101, R115). -/
def State.readRun (s : State) (b : Buf) (k : Nat) : Nat → Except Fault (List Nat)
  | 0 => .ok []
  | n + 1 =>
    match s.readEntry b k with
    | .error e => .error e
    | .ok v =>
      match State.readRun s b (k + 1) n with
      | .error e => .error e
      | .ok vs => .ok (v.toNat :: vs)

end Sys2Proof.Machine
end

