-- ==== Sys2Proof/Machine/Bus.lean ====
section
/-! DEFINITION. The host's bus window: the address map (R45), reads and writes (R46-R48, R186), and what a CMD write
does: accept or discard (R140, R141, R153). -/

namespace Sys2Proof.Machine

/-- What stands at an aligned offset of the window (R45). -/
inductive Loc where
  | id
  | status
  | cmd
  | cmdcnt
  | reserved
  | field (i : Reg)
  | entry (b : Buf) (k : Idx)
deriving DecidableEq, Repr

/-- The address map (R45), for aligned offsets below 4096. -/
def locate (off : Nat) : Loc :=
  if off = 0x000 then .id
  else if off = 0x004 then .status
  else if off = 0x008 then .cmd
  else if off = 0x00C then .cmdcnt
  else if off < 0x020 then .reserved
  else if off < 0x040 then .field (Fin.ofNat 8 ((off - 0x020) / 4))
  else if off < 0x400 then .reserved
  else if off < 0x800 then .entry .c (Fin.ofNat 256 ((off - 0x400) / 4))
  else if off < 0xC00 then .entry .x (Fin.ofNat 256 ((off - 0x800) / 4))
  else .entry .y (Fin.ofNat 256 ((off - 0xC00) / 4))

/-- The window offset of a byte address; `none` outside the window, where the platform answers and not the core
(R40, R45; log entry 7).
DESIGN CHOICE, unsafe (log entry 19): an access is judged by its start address alone, whatever its width. R43, R44 and R188
give no offset to a halfword or word access that starts at BASE-3..BASE-1 and reaches into the window; here it is an access
outside the window, neither refused nor touching the core. -/
def busOffset (addr : Nat) : Option Nat :=
  if Config.base ≤ addr ∧ addr < Config.base + Config.windowBytes then some (addr - Config.base) else none

/-- Lane `k` of a bus word: bits 8k+7:8k. It matters to the host's byte view only (R42). -/
def byteLane (w : Word) (k : Fin 4) : BitVec 8 := w.extractLsb' (8 * k.val) 8

/-- The CLRERR word, the one command accepted while ERR = 1 (R140, R146). -/
def clrerrWord : Word := 0xFC000000#32

/-- A write of `w` to CMD: accepted, discarded, or discarded with BUSY_VIOLATION (R140, R141). -/
def State.offer (s : State) (w : Word) : State :=
  if s.busy then s.recordError .busyViolation (opcodeOf s.latch)
  else if s.err = true ∧ w ≠ clrerrWord then s
  else { s with latch := w, busy := true }

/-- A write to a field-typed location: not performed while a command is in flight (R47, R153). -/
def State.guardWrite (s : State) (written : State) : State :=
  if s.busy then s.recordError .busyViolation (opcodeOf s.latch) else written

/-- A 32-bit write at an aligned offset (R45, R46, R47). -/
def State.busWrite (s : State) (off : Nat) (w : Word) : State :=
  match locate off with
  | .cmd => s.offer w
  | .field i => s.guardWrite (s.setF i (busOperand w))
  | .entry b k => s.guardWrite (s.setEntry b k (busOperand w))
  | .id => s
  | .status => s
  | .cmdcnt => s
  | .reserved => s

/-- A read answers the host with a word; nothing of the core changes (R48). -/
def State.answer (s : State) (w : Word) : State := { s with rdata := w }

/-- A read of a field-typed location while BUSY = 1: a free draw, no error (R186). -/
def State.answerFree (s : State) : State := { s with rdata := Config.busyRead s.draws, draws := s.draws + 1 }

/-- A 32-bit read at an aligned offset (R45, R46, R186). An entry never written stops the run, but only while BUSY = 0:
a read made while BUSY = 1 raises nothing (R35, R186; log entry 12). -/
def State.busRead (s : State) (off : Nat) : Result :=
  match locate off with
  | .id => .next (s.answer Config.id)
  | .status => .next (s.answer s.statusWord)
  | .cmd => .next (s.answer 0#32)
  | .cmdcnt => .next (s.answer s.cmdcnt)
  | .reserved => .next (s.answer 0#32)
  | .field i => if s.busy then .next s.answerFree else .next (s.answer ((s.getF i).setWidth 32))
  | .entry b k =>
    if s.busy then .next s.answerFree
    else
      match s.readEntry b k with
      | .error e => .fault e
      | .ok v => .next (s.answer (v.setWidth 32))

/-- Whether a transaction on the window is one the core defines: not during reset (R181), 32 bits wide with every byte
enabled (R44), aligned (R43). Otherwise the refusal's name. -/
def State.busRefusal (s : State) (off : Nat) (size : Size) (enables : BitVec 4) : Option Refusal :=
  if s.rst then some .busDuringReset
  else if size ≠ .word ∨ enables ≠ 0xF#4 then some .subWordAccess
  else if off % 4 ≠ 0 then some .misalignedAccess
  else none

/-- `MemRead(addr, 4)` in R12's sense, or a read of another width. -/
def State.hostRead (s : State) (addr : Nat) (size : Size) : Result :=
  match busOffset addr with
  | none => .next s
  | some off =>
    match s.busRefusal off size 0xF#4 with
    | some r => .refused r
    | none => s.busRead off

/-- `MemWrite(addr, 4, v)` in R12's sense, or a write of another width or with other byte enables. -/
def State.hostWrite (s : State) (addr : Nat) (size : Size) (enables : BitVec 4) (w : Word) : Result :=
  match busOffset addr with
  | none => .next s
  | some off =>
    match s.busRefusal off size enables with
    | some r => .refused r
    | none => .next (s.busWrite off w)

/-! ### The host notation of R71 -/

/-- `wr off, v`. -/
def hostWr (off : Nat) (v : Word) : Event := .write (Config.base + off) .word 0xF#4 v

/-- `rd off`. -/
def hostRd (off : Nat) : Event := .read (Config.base + off) .word

/-- `cmd W`: the CMD write, and a `poll` whose one STATUS read comes after the completion. -/
def hostCmd (w : Word) : List Event := [hostWr 0x008 w, .coreTurn, hostRd 0x004]

end Sys2Proof.Machine
end

