-- ==== Sys2Proof/Machine/Control.lean ====
section
/-! DEFINITION. The control commands NOP and CLRERR (44_control.md). -/

namespace Sys2Proof.Machine

/-- NOP (R144): nothing but its completion, which counts. -/
def execNop (s : State) : Result := .next s.succeed

/-- CLRERR (R146): the record is cleared, and the command counts, whether or not a record was held. -/
def execClrerr (s : State) : Result := .next s.clearError.succeed

end Sys2Proof.Machine
end

