-- ==== Sys2Proof/Machine/DataMovement.lean ====
section
/-! DEFINITION. The data movement commands LDI, MOV, CST, CLD, PST, PLDX and PLDY (43_data_movement.md). -/

namespace Sys2Proof.Machine

/-- LDI (R120). -/
def execLdi (rd : Reg) (imm : Nat) (s : State) : Result := s.finish rd (toElem (immOperand imm))

/-- MOV (R121). -/
def execMov (rd rs1 : Reg) (s : State) : Result := s.finish rd (s.getF rs1)

/-- CST (R122). -/
def execCst (idx : Idx) (rs1 : Reg) (s : State) : Result := .next (s.setEntry .c idx (s.getF rs1)).succeed

/-- One buffer entry into `F[rd]`: the shared form of CLD, PLDX and PLDY. -/
def State.loadEntry (s : State) (rd : Reg) (b : Buf) (k : Nat) : Result :=
  match s.readEntry b k with
  | .error e => .fault e
  | .ok v => s.finish rd v

/-- CLD (R123). -/
def execCld (rd : Reg) (idx : Idx) (s : State) : Result := s.loadEntry rd .c idx

/-- PST (R124): both registers are read before either buffer is written; no check on the x value. -/
def execPst (idx : Idx) (rs1 rs2 : Reg) (s : State) : Result :=
  .next ((s.setEntry .x idx (s.getF rs1)).setEntry .y idx (s.getF rs2)).succeed

/-- PLDX (R125). -/
def execPldx (rd : Reg) (idx : Idx) (s : State) : Result := s.loadEntry rd .x idx

/-- PLDY (R126). -/
def execPldy (rd : Reg) (idx : Idx) (s : State) : Result := s.loadEntry rd .y idx

end Sys2Proof.Machine
end

