-- ==== Sys2Proof/Machine/FieldArith.lean ====
section
/-! DEFINITION. The field arithmetic commands MADD, MSUB, MMUL, MINV, MPOW and MPOWI (40_field_arithmetic.md). Operands
are read before the result is written (R13, R82). -/

namespace Sys2Proof.Machine

/-- MADD (R84). -/
def execMadd (rd rs1 rs2 : Reg) (s : State) : Result :=
  s.finish rd (toElem (modP ((s.num rs1 : Int) + s.num rs2)))

/-- MSUB (R85). -/
def execMsub (rd rs1 rs2 : Reg) (s : State) : Result :=
  s.finish rd (toElem (modP ((s.num rs1 : Int) - s.num rs2)))

/-- MMUL (R86). -/
def execMmul (rd rs1 rs2 : Reg) (s : State) : Result :=
  s.finish rd (toElem (modP ((s.num rs1 : Int) * s.num rs2)))

/-- MINV (R88): the inverse of 0 raises DIVISION_BY_ZERO. -/
def execMinv (rd rs1 : Reg) (s : State) : Result :=
  if s.num rs1 = 0 then s.raise .divisionByZero 0x06#6
  else s.finish rd (toElem (inv (s.num rs1)))

/-- MPOW (R90): the exponent is a register's value, not reduced. -/
def execMpow (rd rs1 rs2 : Reg) (s : State) : Result :=
  s.finish rd (toElem (powmod (s.num rs1) (s.num rs2)))

/-- MPOWI (R92): the exponent is the 16-bit immediate, not reduced. -/
def execMpowi (rd rs1 : Reg) (e : Nat) (s : State) : Result :=
  s.finish rd (toElem (powmod (s.num rs1) e))

end Sys2Proof.Machine
end

