-- ==== Sys2Proof/Machine/Lagrange.lean ====
section
/-! DEFINITION. The Lagrange interpolation command LAGR0 (42_lagrange.md). -/

namespace Sys2Proof.Machine

/-- LAGR0 (R110): its checks in the order R155 fixes. The window is read once the two checks on the command's own
fields have passed; an entry of it never written stops the command before INVALID_SHARE_SET is decided
(R115; log entry 11). -/
def execLagr0 (rd : Reg) (base count : Nat) (s : State) : Result :=
  if count = 0 then s.raise .emptyInput 0x12#6
  else if base + count > Config.NB then s.raise .invalidParameters 0x12#6
  else
    match s.readRun .x base count with
    | .error e => .fault e
    | .ok xs =>
      match s.readRun .y base count with
      | .error e => .fault e
      | .ok ys =>
        if xs.Nodup then s.finish rd (toElem (lagrange0 xs ys))
        else s.raise .invalidShareSet 0x12#6

end Sys2Proof.Machine
end

