-- ==== Sys2Proof/Machine/Polynomial.lean ====
section
/-! DEFINITION. The polynomial evaluator commands PEVAL and SPLIT (41_polynomial.md). -/

namespace Sys2Proof.Machine

/-- PEVAL (R100): any point, 0 and 256 among them; only C[0..t-1] is read (R101). -/
def execPeval (rd rs1 : Reg) (t : Nat) (s : State) : Result :=
  if t = 0 then s.raise .invalidParameters 0x10#6
  else
    match s.readRun .c 0 t with
    | .error e => .fault e
    | .ok cs => s.finish rd (toElem (horner cs (s.num rs1)))

/-- The x-coordinates 1..n in entry order (R103). -/
def splitXs (n : Nat) : List Elem := (List.range n).map fun i => toElem (i + 1)

/-- The values of the polynomial `cs` at 1..n in entry order (R102). -/
def splitYs (cs : List Nat) (n : Nat) : List Elem := (List.range n).map fun i => toElem (horner cs (i + 1))

/-- SPLIT (R102): the source's checks, then all n pairs at once. -/
def execSplit (n t : Nat) (s : State) : Result :=
  if t < 1 ∨ t > n ∨ n > Config.NMAX then s.raise .invalidParameters 0x11#6
  else
    match s.readRun .c 0 t with
    | .error e => .fault e
    | .ok cs =>
      .next (State.succeed { s with
        bufX := Memory.writeFrom 0 (splitXs n) s.bufX, bufY := Memory.writeFrom 0 (splitYs cs n) s.bufY })

end Sys2Proof.Machine
end

