-- ==== Sys2Proof/Machine/Dispatch.lean ====
section
/-! DEFINITION. One arm per command: the completion of a legal command in flight (R142). -/

namespace Sys2Proof.Machine

def exec (i : Instr) (s : State) : Host.Outcome State Fault Refusal :=
  match i with
  | .nop => Sys2Proof.Machine.execNop s
  | .ldi rd imm => Sys2Proof.Machine.execLdi rd imm s
  | .mov rd rs1 => Sys2Proof.Machine.execMov rd rs1 s
  | .madd rd rs1 rs2 => Sys2Proof.Machine.execMadd rd rs1 rs2 s
  | .msub rd rs1 rs2 => Sys2Proof.Machine.execMsub rd rs1 rs2 s
  | .mmul rd rs1 rs2 => Sys2Proof.Machine.execMmul rd rs1 rs2 s
  | .minv rd rs1 => Sys2Proof.Machine.execMinv rd rs1 s
  | .mpow rd rs1 rs2 => Sys2Proof.Machine.execMpow rd rs1 rs2 s
  | .mpowi rd rs1 e => Sys2Proof.Machine.execMpowi rd rs1 e s
  | .peval rd rs1 t => Sys2Proof.Machine.execPeval rd rs1 t s
  | .split n t => Sys2Proof.Machine.execSplit n t s
  | .lagr0 rd base count => Sys2Proof.Machine.execLagr0 rd base count s
  | .cst idx rs1 => Sys2Proof.Machine.execCst idx rs1 s
  | .cld rd idx => Sys2Proof.Machine.execCld rd idx s
  | .pst idx rs1 rs2 => Sys2Proof.Machine.execPst idx rs1 rs2 s
  | .pldx rd idx => Sys2Proof.Machine.execPldx rd idx s
  | .pldy rd idx => Sys2Proof.Machine.execPldy rd idx s
  | .clrerr => Sys2Proof.Machine.execClrerr s

end Sys2Proof.Machine
end

