-- ==== Sys2Proof/Machine/Lifecycle.lean ====
section
/-! DEFINITION. The completion step (R142), and what each coming action of the host does (R50, R156, R180). -/

namespace Sys2Proof.Machine

/-- The completion of the word in flight (R142): the command's rule, or ILLEGAL_COMMAND with the word's opcode (R67). -/
def State.complete (s : State) : Result :=
  match decode s.latch with
  | .command i => exec i s
  | .illegal _ => s.raise .illegalCommand (opcodeOf s.latch)

/-- A moment without a host transaction: reset holds the state while it is asserted, a command in flight completes, and
an idle core stays as it is (R142, R180, R182). -/
def State.coreMove (s : State) : Result :=
  if s.rst then .next (s.applyReset true)
  else if s.busy then s.complete
  else .next s

/-- What one action of the host does. -/
def State.act (s : State) : Event → Result
  | .coreTurn => s.coreMove
  | .read addr size => s.hostRead addr size
  | .write addr size enables w => s.hostWrite addr size enables w
  | .rst level => .next (s.setRst level)

/-- One step: the host's next action, or with none left a moment without one, so that a command in flight completes
(R143; log entries 1 and 2). -/
def State.advance (s : State) : Result :=
  match s.inputs with
  | [] => s.coreMove
  | e :: rest => State.act { s with inputs := rest } e

end Sys2Proof.Machine
end

