-- ==== Sys2Proof/Machine/Step.lean ====
section
/-! DEFINITION. One step of the machine, and the state in which a given command word is the next thing the core runs. -/

namespace Sys2Proof.Machine

/-- One host transaction, one change of the reset line, or one completion (R49, R50). -/
def step (s : State) : Host.Outcome State Fault Refusal := s.advance

/-- `s` with the command word of the `nbits` bits of `w` accepted and in flight, reset released, and the core to move
next, so that the very next step completes it. It stands for a CMD write that was accepted (R140; log entry 10). -/
def State.withFetchWord (s : State) (nbits w : Nat) : State :=
  { s with
    rst := false
    busy := true
    latch := BitVec.ofNat 32 (w % 2 ^ nbits)
    inputs := match s.inputs with
      | [] => []
      | e :: rest => .coreTurn :: e :: rest }

end Sys2Proof.Machine
end

