-- ==== Sys2Proof/Machine/Assembler.lean ====
section
/-! DEFINITION. The assembler syntax of R69 and R70: one line of text to its command words. The host's tool, not the
core's; it refuses an operand outside its range and does not truncate. Spaces: log entry 16. -/

namespace Sys2Proof.Machine

/-- One operand as written (R69): a register, or a number. -/
inductive AsmOperand where
  | reg (i : Reg)
  | num (n : Nat)
deriving DecidableEq, Repr

/-- One line: a command, or a pseudo-instruction. -/
inductive AsmLine where
  | command (i : Instr)
  | pseudo (p : Pseudo)
deriving DecidableEq, Repr

/-- The value of a digit in base 16; of a decimal digit, below 10. -/
def digitValue (c : Char) : Option Nat :=
  let n := c.toNat
  if 48 ≤ n ∧ n ≤ 57 then some (n - 48)
  else if 97 ≤ n ∧ n ≤ 102 then some (n - 87)
  else if 65 ≤ n ∧ n ≤ 70 then some (n - 55)
  else none

/-- Digits in base `b`, after the value `acc` of those before them. -/
def digitsValue (b acc : Nat) : List Char → Option Nat
  | [] => some acc
  | c :: cs =>
    match digitValue c with
    | some d => if d < b then digitsValue b (acc * b + d) cs else none
    | none => none

/-- A register `f0`..`f7`, a hexadecimal number with `0x`, or a decimal number (R69). -/
def parseOperand : List Char → Option AsmOperand
  | [] => none
  | ['0', 'x'] => none
  | 'f' :: ds =>
    match ds with
    | [d] =>
      match digitValue d with
      | some n => if h : n < 8 then some (.reg ⟨n, h⟩) else none
      | none => none
    | _ => none
  | '0' :: 'x' :: ds => (digitsValue 16 0 ds).map .num
  | ds => (digitsValue 10 0 ds).map .num

/-- Text without the spaces at its two ends. -/
def trimSpaces (cs : List Char) : List Char :=
  ((cs.dropWhile (· == ' ')).reverse.dropWhile (· == ' ')).reverse

/-- The parts of a text between its commas. -/
def splitCommas : List Char → List (List Char)
  | [] => [[]]
  | c :: cs =>
    if c == ',' then [] :: splitCommas cs
    else
      match splitCommas cs with
      | [] => [[c]]
      | p :: ps => (c :: p) :: ps

/-- The operands after a mnemonic; an empty text is no operand. -/
def parseOperands (cs : List Char) : Option (List AsmOperand) :=
  match trimSpaces cs with
  | [] => some []
  | d :: ds => (splitCommas (d :: ds)).mapM fun p => parseOperand (trimSpaces p)

/-- A buffer index 0..255 (R41). -/
def indexOf (n : Nat) : Option Idx := if h : n < 256 then some ⟨n, h⟩ else none

/-- The line a mnemonic, in small letters, and its operands stand for (R69, R70). -/
def lineOf : List Char → List AsmOperand → Option AsmLine
  | ['n', 'o', 'p'], [] => some (.command .nop)
  | ['l', 'd', 'i'], [.reg d, .num imm] => some (.command (.ldi d imm))
  | ['m', 'o', 'v'], [.reg d, .reg s] => some (.command (.mov d s))
  | ['m', 'a', 'd', 'd'], [.reg d, .reg a, .reg b] => some (.command (.madd d a b))
  | ['m', 's', 'u', 'b'], [.reg d, .reg a, .reg b] => some (.command (.msub d a b))
  | ['m', 'm', 'u', 'l'], [.reg d, .reg a, .reg b] => some (.command (.mmul d a b))
  | ['m', 'i', 'n', 'v'], [.reg d, .reg s] => some (.command (.minv d s))
  | ['m', 'p', 'o', 'w'], [.reg d, .reg b, .reg e] => some (.command (.mpow d b e))
  | ['m', 'p', 'o', 'w', 'i'], [.reg d, .reg b, .num e] => some (.command (.mpowi d b e))
  | ['p', 'e', 'v', 'a', 'l'], [.reg d, .reg x, .num t] => some (.command (.peval d x t))
  | ['s', 'p', 'l', 'i', 't'], [.num n, .num t] => some (.command (.split n t))
  | ['l', 'a', 'g', 'r', '0'], [.reg d, .num base, .num count] => some (.command (.lagr0 d base count))
  | ['c', 's', 't'], [.num idx, .reg s] => (indexOf idx).map fun k => .command (.cst k s)
  | ['c', 'l', 'd'], [.reg d, .num idx] => (indexOf idx).map fun k => .command (.cld d k)
  | ['p', 's', 't'], [.num idx, .reg x, .reg y] => (indexOf idx).map fun k => .command (.pst k x y)
  | ['p', 'l', 'd', 'x'], [.reg d, .num idx] => (indexOf idx).map fun k => .command (.pldx d k)
  | ['p', 'l', 'd', 'y'], [.reg d, .num idx] => (indexOf idx).map fun k => .command (.pldy d k)
  | ['c', 'l', 'r', 'e', 'r', 'r'], [] => some (.command .clrerr)
  | ['m', 's', 'q', 'r'], [.reg d, .reg s] => some (.pseudo (.msqr d s))
  | ['m', 'c', 'l', 'r'], [.reg d] => some (.pseudo (.mclr d))
  | ['m', 'n', 'e', 'g'], [.reg d, .reg s] => some (.pseudo (.mneg d s))
  | ['m', 'd', 'i', 'v'], [.reg d, .reg a, .reg b, .reg t] => some (.pseudo (.mdiv d a b t))
  | _, _ => none

/-- A line of text: the mnemonic in letters of either case, then its operands (R69). -/
def parseLine (line : List Char) : Option AsmLine :=
  let t := trimSpaces line
  match parseOperands (t.dropWhile (· != ' ')) with
  | some ops => lineOf ((t.takeWhile (· != ' ')).map Char.toLower) ops
  | none => none

/-- The words of a line, each a separate CMD write (R69, R70); `none` where the assembler refuses it. -/
def assembleLine (line : List Char) : Option (List Word) :=
  match parseLine line with
  | some (.command i) => (assemble i).map fun w => [w]
  | some (.pseudo p) => (expand p).bind fun is => is.mapM assemble
  | none => none

end Sys2Proof.Machine
end

