-- ==== Sys2Proof/Safety.lean ====
section
/-! DEFINITION. What counts as a safe state and a finished run, which entries a command reads, and the terms in which
the claims say what a command leaves unchanged. -/

namespace Sys2Proof

open Sys2Proof.Machine

/-- A stored value in 0..256 (R20). -/
def Canonical (v : Elem) : Prop := v.toNat ≤ 256

/-- Every field register and every written buffer entry holds a canonical value (R20, R21). -/
def CanonicalState (s : State) : Prop :=
  (∀ i, Canonical (s.getF i)) ∧ ∀ b k v, s.entry b k = some v → Canonical v

/-- The three buffers are in canonical form. -/
def MemoryForm (s : State) : Prop := ∀ b, Memory.wf (s.buf b) = true

/-- STATUS holds no half record: ERRCODE is 0 exactly while ERR = 0, and ERROP is 0 while ERR = 0 (R27, R28). -/
def ErrorRecordForm (s : State) : Prop :=
  (s.err = false ↔ s.errcode = .none) ∧ (s.err = false → s.errop = 0#6)

/-- While the reset line is asserted the core's state is the reset state (R180, R181). -/
def ResetHeld (s : State) : Prop := s.rst = true → s = s.applyReset true

/-- The invariant of the machine. -/
def Inv (s : State) : Prop := CanonicalState s ∧ MemoryForm s ∧ ErrorRecordForm s ∧ ResetHeld s

/-- A run of a host program has ended: no action is left and no command is in flight (R147). -/
def Finished (s : State) : Prop := s.inputs = [] ∧ s.busy = false

/-- The core takes its completion step next: a command is in flight, reset is released, and the host makes no transaction
first (R142). -/
def CompletionNext (s : State) : Prop :=
  s.rst = false ∧ s.busy = true ∧ (s.inputs = [] ∨ s.inputs.head? = some .coreTurn)

/-- `s` with its next input taken off. -/
def afterInput (s : State) : State := { s with inputs := s.inputs.tail }

/-- The entries `k`..`k+n-1` of a buffer. -/
def runOf (b : Buf) (k n : Nat) : List (Buf × Nat) := (List.range' k n).map fun j => (b, j)

/-- The buffer entries a command reads (R101, R115, R123, R125, R126; none where a check on its own fields fails first). -/
def Instr.reads : Instr → List (Buf × Nat)
  | .peval _ _ t => runOf .c 0 t
  | .split n t => if 1 ≤ t ∧ t ≤ n ∧ n ≤ 255 then runOf .c 0 t else []
  | .lagr0 _ base count =>
    if 1 ≤ count ∧ base + count ≤ 256 then runOf .x base count ++ runOf .y base count else []
  | .cld _ idx => [(.c, idx.val)]
  | .pldx _ idx => [(.x, idx.val)]
  | .pldy _ idx => [(.y, idx.val)]
  | .nop => []
  | .ldi _ _ => []
  | .mov _ _ => []
  | .madd _ _ _ => []
  | .msub _ _ _ => []
  | .mmul _ _ _ => []
  | .minv _ _ => []
  | .mpow _ _ _ => []
  | .mpowi _ _ _ => []
  | .cst _ _ => []
  | .pst _ _ _ => []
  | .clrerr => []

/-- Every entry the command reads has been written since reset (R183). -/
def ReadsWritten (i : Instr) (s : State) : Prop := ∀ p ∈ i.reads, s.entry p.1 p.2 ≠ none

/-- Entry `k` of a buffer as a number; 0 where nothing has been written, which no claim reads. -/
def entryNum (s : State) (b : Buf) (k : Nat) : Nat := ((s.entry b k).getD 0#9).toNat

/-! ### Frames -/

/-- No field register differs. -/
def SameF (s t : State) : Prop := ∀ i, t.getF i = s.getF i

/-- No field register but `F[rd]` differs. -/
def SameFExcept (rd : Reg) (s t : State) : Prop := ∀ i, i ≠ rd → t.getF i = s.getF i

/-- No entry of any buffer differs, nor whether it has been written. -/
def SameEntries (s t : State) : Prop := ∀ b k, t.entry b k = s.entry b k

/-- The error record is unchanged. -/
def SameRecord (s t : State) : Prop := t.err = s.err ∧ t.errcode = s.errcode ∧ t.errop = s.errop

/-- The reset line, the latch and the host's side are unchanged. -/
def SameOutside (s t : State) : Prop :=
  t.rst = s.rst ∧ t.latch = s.latch ∧ t.inputs = s.inputs ∧ t.rdata = s.rdata ∧ t.draws = s.draws

/-- The command counted and is no longer in flight (R142). -/
def Counted (s t : State) : Prop := t.cmdcnt = s.cmdcnt + 1#32 ∧ t.busy = false

/-- A command that succeeds with one result, in `F[rd]`, and changes nothing else. -/
def WroteOnlyF (rd : Reg) (s t : State) : Prop :=
  SameFExcept rd s t ∧ SameEntries s t ∧ SameRecord s t ∧ SameOutside s t ∧ Counted s t

/-- A command that fails with error `e` of opcode `op`: recorded unless a record is held, no result, no count, and
nothing else changes (R142, R152). -/
def FailedWith (e : ErrCode) (op : Opcode) (s t : State) : Prop :=
  SameF s t ∧ SameEntries s t ∧ SameOutside s t ∧ t.cmdcnt = s.cmdcnt ∧ t.busy = false ∧
    (s.err = true → SameRecord s t) ∧ (s.err = false → t.err = true ∧ t.errcode = e ∧ t.errop = op)

/-- What the words of one opcode mean (R65, R67): those with `pattern` under `mask` decode to the row's command, and
every other word of that opcode completes with ILLEGAL_COMMAND. -/
def RowOf (op : Opcode) (pattern mask : Word) (build : Word → Instr) : Prop :=
  (∀ w : Word, w &&& mask = pattern → decode w = .command (build w)) ∧
    ∀ (w : Word) (s : State), opcodeOf w = op → w &&& mask ≠ pattern → s.latch = w →
      ∃ t, s.complete = .next t ∧ FailedWith .illegalCommand op s t

/-- The pairs of a LAGR0 window are all written since reset (R115). -/
def WindowWritten (s : State) (base count : Nat) : Prop :=
  ∀ j < count, s.entry .x (base + j) ≠ none ∧ s.entry .y (base + j) ≠ none

/-- The X values of a window are pairwise distinct (R17, R111). -/
def DistinctXs (s : State) (base count : Nat) : Prop :=
  ∀ i < count, ∀ j < count, entryNum s .x (base + i) = entryNum s .x (base + j) → i = j

/-- The coefficients C[0..t-1] are written since reset (R101). -/
def CoeffsWritten (s : State) (t : Nat) : Prop := ∀ k < t, s.entry .c k ≠ none

/-- The polynomial with coefficients C[0..t-1] at the point `x`, as the sum R16 gives, reduced. -/
def polyAt (s : State) (t x : Nat) : Nat := (∑ k ∈ Finset.range t, entryNum s .c k * x ^ k) % 257

/-- The value R17 gives a window, in the field of residues modulo 257. -/
def lagrangeSum (s : State) (base count : Nat) : ZMod 257 :=
  ∑ i ∈ Finset.range count, (entryNum s .y (base + i) : ZMod 257) *
    (∏ j ∈ (Finset.range count).erase i, -(entryNum s .x (base + j) : ZMod 257)) *
    (∏ j ∈ (Finset.range count).erase i,
      ((entryNum s .x (base + i) : ZMod 257) - (entryNum s .x (base + j) : ZMod 257)))⁻¹

end Sys2Proof
end

