-- ==== Sys2Proof/Certificates/Slice0/Obligations.lean ====
section
/-! DEFINITION. The statements for the provers, each from a rule of spec/ or from what the rules together imply. -/

open Sys2Proof Sys2Proof.Machine

/-! ### Encoding -/

/-- The encoding vectors of 95_test_vectors.md section 3, legal and illegal. -/
def Obligations.SpecWordsDecode : Prop :=
  decode 0x04800003#32 = .command (.ldi 1 3) ∧ decode 0x19100000#32 = .command (.minv 2 1) ∧
  decode 0x15940000#32 = .command (.mmul 3 1 2) ∧ decode 0x22100080#32 = .command (.mpowi 4 1 128) ∧
  decode 0x1E980000#32 = .command (.mpow 5 1 4) ∧ decode 0x13060000#32 = .command (.msub 6 0 3) ∧
  decode 0x41100003#32 = .command (.peval 2 1 3) ∧ decode 0x44000A03#32 = .command (.split 10 3) ∧
  decode 0x48001003#32 = .command (.lagr0 0 16 3) ∧ decode 0x60100000#32 = .command (.cst 0 1) ∧
  decode 0x68140010#32 = .command (.pst 16 1 2) ∧ decode 0x71000003#32 = .command (.pldy 2 3) ∧
  decode 0xFC000000#32 = .command .clrerr ∧ decode 0x0C000001#32 = .illegal .reservedBit ∧
  decode 0x04400000#32 = .illegal .reservedBit ∧ decode 0x44800A03#32 = .illegal .reservedBit ∧
  decode 0x24000000#32 = .illegal .reservedOpcode

/-- 30_encoding.md sections 1 to 3: no field of any command is lost on the way to its word and back. -/
def Obligations.DecodeEncodeRoundTrip : Prop :=
  ∀ i : Instr, i.wellFormed = true → decode (encode i) = .command i

/-- 30_encoding.md sections 1 to 3: a legal word has one spelling, and its command is one the assembler can write. -/
def Obligations.EncodeDecodeRoundTrip : Prop :=
  ∀ (w : Word) (i : Instr), decode w = .command i → i.wellFormed = true ∧ encode i = w

/-- R66. -/
def Obligations.DecodingFollowsOpcodeMap : Prop :=
  ∀ w : Word,
    (∀ r ∈ opcodeMap, w &&& r.mask = r.pattern → decode w = .command (r.build w)) ∧
    ((∀ r ∈ opcodeMap, w &&& r.mask ≠ r.pattern) → ∃ why, decode w = .illegal why)

/-- R67: which words are illegal, what completing one does, and that only the word 0 is a NOP. -/
def Obligations.IllegalWordsRaiseIllegalCommand : Prop :=
  (∀ w : Word, (opcodeOf w).toNat ∈ List.range' 0x09 7 ++ List.range' 0x13 5 ++ List.range' 0x1D 34 →
    decode w = .illegal .reservedOpcode) ∧
  (List.range' 0x09 7 ++ List.range' 0x13 5 ++ List.range' 0x1D 34).length = 46 ∧
  (∀ w : Word, ((∀ r ∈ opcodeMap, opcodeOf w ≠ r.op) ∨
      (∃ r ∈ opcodeMap, opcodeOf w = r.op ∧ w &&& r.mask ≠ r.pattern)) ↔ ∃ why, decode w = .illegal why) ∧
  (∀ (s : State) (why : Illegal), decode s.latch = .illegal why →
    ∃ t, s.complete = .next t ∧ FailedWith .illegalCommand (opcodeOf s.latch) s t) ∧
  ∀ w : Word, decode w = .command .nop ↔ w = 0#32

/-! ### Field arithmetic -/

/-- R84. -/
def Obligations.MaddAddsModP : Prop :=
  RowOf 0x03#6 0x0C000000#32 0xFC01FFFF#32 (fun w => .madd (rdOf w) (rs1Of w) (rs2Of w)) ∧
  ∀ (rd rs1 rs2 : Reg) (s : State), ∃ t, exec (.madd rd rs1 rs2) s = .next t ∧
    (t.getF rd).toNat = (s.num rs1 + s.num rs2) % 257 ∧ WroteOnlyF rd s t

/-- R85; the second form of the result is the one the pseudocode's comment gives for canonical operands. -/
def Obligations.MsubSubtractsModP : Prop :=
  RowOf 0x04#6 0x10000000#32 0xFC01FFFF#32 (fun w => .msub (rdOf w) (rs1Of w) (rs2Of w)) ∧
  ∀ (rd rs1 rs2 : Reg) (s : State), ∃ t, exec (.msub rd rs1 rs2) s = .next t ∧
    ((t.getF rd).toNat : Int) = ((s.num rs1 : Int) - s.num rs2) % 257 ∧
    (Canonical (s.getF rs1) → Canonical (s.getF rs2) →
      (t.getF rd).toNat = if s.num rs2 ≤ s.num rs1 then s.num rs1 - s.num rs2 else s.num rs1 + 257 - s.num rs2) ∧
    WroteOnlyF rd s t

/-- R86. -/
def Obligations.MmulMultipliesModP : Prop :=
  RowOf 0x05#6 0x14000000#32 0xFC01FFFF#32 (fun w => .mmul (rdOf w) (rs1Of w) (rs2Of w)) ∧
  ∀ (rd rs1 rs2 : Reg) (s : State), ∃ t, exec (.mmul rd rs1 rs2) s = .next t ∧
    (t.getF rd).toNat = s.num rs1 * s.num rs2 % 257 ∧ WroteOnlyF rd s t

/-- R88 with R15: the result is the one number in 1..256 that multiplies the operand to 1; 0 has none. -/
def Obligations.MinvInvertsOrRaises : Prop :=
  RowOf 0x06#6 0x18000000#32 0xFC0FFFFF#32 (fun w => .minv (rdOf w) (rs1Of w)) ∧
  ∀ (rd rs1 : Reg) (s : State),
    (s.num rs1 = 0 → ∃ t, exec (.minv rd rs1) s = .next t ∧ FailedWith .divisionByZero 0x06#6 s t) ∧
    (1 ≤ s.num rs1 → s.num rs1 ≤ 256 → ∃ t, exec (.minv rd rs1) s = .next t ∧
      1 ≤ (t.getF rd).toNat ∧ (t.getF rd).toNat ≤ 256 ∧ s.num rs1 * (t.getF rd).toNat % 257 = 1 ∧
      (∀ v, 1 ≤ v → v ≤ 256 → s.num rs1 * v % 257 = 1 → v = (t.getF rd).toNat) ∧ WroteOnlyF rd s t)

/-- R90, with its corner case for the exponent 256. -/
def Obligations.MpowRaisesToRegister : Prop :=
  RowOf 0x07#6 0x1C000000#32 0xFC01FFFF#32 (fun w => .mpow (rdOf w) (rs1Of w) (rs2Of w)) ∧
  ∀ (rd rs1 rs2 : Reg) (s : State), ∃ t, exec (.mpow rd rs1 rs2) s = .next t ∧
    (t.getF rd).toNat = s.num rs1 ^ s.num rs2 % 257 ∧
    (1 ≤ s.num rs1 → s.num rs1 ≤ 256 → s.num rs2 = 256 → (t.getF rd).toNat = 1) ∧ WroteOnlyF rd s t

/-- R92, with its corner cases for the bases 3 and 256. -/
def Obligations.MpowiRaisesToImmediate : Prop :=
  RowOf 0x08#6 0x20000000#32 0xFC0F0000#32 (fun w => .mpowi (rdOf w) (rs1Of w) (imm16Of w)) ∧
  ∀ (rd rs1 : Reg) (e : Nat) (s : State), ∃ t, exec (.mpowi rd rs1 e) s = .next t ∧
    (t.getF rd).toNat = s.num rs1 ^ e % 257 ∧ (s.num rs1 = 3 → e = 65535 → (t.getF rd).toNat = 86) ∧
    (s.num rs1 = 256 → (t.getF rd).toNat = if e % 2 = 0 then 1 else 256) ∧ WroteOnlyF rd s t

/-- R81: division is MINV then MMUL, and a divisor of 0 is an error, never a value. -/
def Obligations.DivisionByInverse : Prop :=
  ∀ (fd fa fb ft : Reg) (s : State), ft ≠ fa →
    (s.num fb = 0 → ∃ t, exec (.minv ft fb) s = .next t ∧ FailedWith .divisionByZero 0x06#6 s t) ∧
    (1 ≤ s.num fb → s.num fb ≤ 256 → s.num fa ≤ 256 → ∃ t u, exec (.minv ft fb) s = .next t ∧
      exec (.mmul fd fa ft) t = .next u ∧ (u.getF fd).toNat ≤ 256 ∧ (u.getF fd).toNat * s.num fb % 257 = s.num fa)

/-- R89: MINV is an involution, its product with the operand is 1, and it depends on nothing but the operand. -/
def Obligations.InversionIsInvolution : Prop :=
  (∀ (r1 r2 r3 rs : Reg) (s : State), 1 ≤ s.num rs → s.num rs ≤ 256 →
    ∃ t u, exec (.minv r1 rs) s = .next t ∧ exec (.minv r2 r1) t = .next u ∧ u.getF r2 = s.getF rs ∧
      (r1 ≠ rs → ∃ v, exec (.mmul r3 rs r1) t = .next v ∧ (v.getF r3).toNat = 1)) ∧
  ∀ (rd rs rd' rs' : Reg) (s s' t : State), 1 ≤ s.num rs → s.getF rs = s'.getF rs' →
    exec (.minv rd rs) s = .next t → ∃ t', exec (.minv rd' rs') s' = .next t' ∧ t'.getF rd' = t.getF rd

/-- R87. -/
def Obligations.MultiplicationLaws : Prop :=
  ∀ (rd rs1 rs2 : Reg) (s : State), Canonical (s.getF rs1) → Canonical (s.getF rs2) →
    ∃ t, exec (.mmul rd rs1 rs2) s = .next t ∧ exec (.mmul rd rs2 rs1) s = .next t ∧
      ((t.getF rd).toNat = 0 ↔ s.num rs1 = 0 ∨ s.num rs2 = 0) ∧
      (s.num rs1 = 256 → ((t.getF rd).toNat : Int) = (-(s.num rs2 : Int)) % 257)

/-- R91, for the register form and the immediate form of exponentiation. -/
def Obligations.ExponentiationLaws : Prop :=
  ∀ (rd rs1 : Reg) (s : State), Canonical (s.getF rs1) →
    (∃ t, exec (.mpowi rd rs1 1) s = .next t ∧ t.getF rd = s.getF rs1) ∧
    (∀ e1 e2, ∃ t1 t2 t, exec (.mpowi rd rs1 e1) s = .next t1 ∧ exec (.mpowi rd rs1 e2) s = .next t2 ∧
      exec (.mpowi rd rs1 (e1 + e2)) s = .next t ∧
      (t.getF rd).toNat = (t1.getF rd).toNat * (t2.getF rd).toNat % 257) ∧
    (∀ e, ∃ t, exec (.mpowi rd rs1 e) s = .next t ∧ ((t.getF rd).toNat = 0 ↔ s.num rs1 = 0 ∧ 1 ≤ e)) ∧
    ∀ rs2, exec (.mpow rd rs1 rs2) s = exec (.mpowi rd rs1 (s.num rs2)) s

/-- 95_test_vectors.md section 4: MSUB undoes MADD, and MPOWI by 255 is MINV. -/
def Obligations.ArithmeticUndoLaws : Prop :=
  (∀ (r1 r2 ra rb : Reg) (s : State), Canonical (s.getF ra) → r1 ≠ rb →
    ∃ t u, exec (.madd r1 ra rb) s = .next t ∧ exec (.msub r2 r1 rb) t = .next u ∧ u.getF r2 = s.getF ra) ∧
  ∀ (rd rs : Reg) (s : State), 1 ≤ s.num rs → s.num rs ≤ 256 → exec (.mpowi rd rs 255) s = exec (.minv rd rs) s

/-- 30_encoding.md section 5: what each pseudo-instruction expands to, when it is refused, and the value its expansion
leaves (the quotient of MDIV is DivisionByInverse). -/
def Obligations.PseudoInstructionsCompute : Prop :=
  ∀ (fd fs fa fb ft : Reg) (s : State),
    (expand (.msqr fd fs) = some [.mmul fd fs fs] ∧
      ∃ t, exec (.mmul fd fs fs) s = .next t ∧ (t.getF fd).toNat = s.num fs ^ 2 % 257) ∧
    (expand (.mclr fd) = some [.ldi fd 0] ∧ ∃ t, exec (.ldi fd 0) s = .next t ∧ t.getF fd = 0#9) ∧
    (fd = fs → expand (.mneg fd fs) = none) ∧
    (fd ≠ fs → expand (.mneg fd fs) = some [.ldi fd 0, .msub fd fd fs] ∧
      ∃ t u, exec (.ldi fd 0) s = .next t ∧ exec (.msub fd fd fs) t = .next u ∧
        ((u.getF fd).toNat : Int) = (-(s.num fs : Int)) % 257) ∧
    (ft = fa → expand (.mdiv fd fa fb ft) = none) ∧
    (ft ≠ fa → expand (.mdiv fd fa fb ft) = some [.minv ft fb, .mmul fd fa ft])

/-! ### Polynomial evaluator -/

/-- R100 with R16: the sum of C[k] * x^k, the error for t = 0, and R101's fault for a coefficient never written. -/
def Obligations.PevalEvaluatesPolynomial : Prop :=
  RowOf 0x10#6 0x40000000#32 0xFC0FFF00#32 (fun w => .peval (rdOf w) (rs1Of w) (b8Of w)) ∧
  ∀ (rd rs1 : Reg) (t : Nat) (s : State),
    (t = 0 → ∃ u, exec (.peval rd rs1 t) s = .next u ∧ FailedWith .invalidParameters 0x10#6 s u) ∧
    (1 ≤ t → CoeffsWritten s t → (∀ k < t, entryNum s .c k ≤ 256) →
      ∃ u, exec (.peval rd rs1 t) s = .next u ∧ (u.getF rd).toNat = polyAt s t (s.num rs1) ∧ WroteOnlyF rd s u) ∧
    (1 ≤ t → ¬ CoeffsWritten s t →
      ∃ k < t, s.entry .c k = none ∧ exec (.peval rd rs1 t) s = .fault (.unwrittenEntry .c k))

/-- R102 and R103: the source's checks; the n pairs (i, polynomial at i); everything else as it was. -/
def Obligations.SplitWritesShares : Prop :=
  RowOf 0x11#6 0x44000000#32 0xFFFF0000#32 (fun w => .split (a8Of w) (b8Of w)) ∧
  ∀ (n t : Nat) (s : State),
    (t < 1 ∨ t > n ∨ n > 255 →
      ∃ u, exec (.split n t) s = .next u ∧ FailedWith .invalidParameters 0x11#6 s u) ∧
    (1 ≤ t → t ≤ n → n ≤ 255 → CoeffsWritten s t → (∀ k < t, entryNum s .c k ≤ 256) →
      ∃ u, exec (.split n t) s = .next u ∧
        (∀ i, 1 ≤ i → i ≤ n → u.entry .x (i - 1) = some (BitVec.ofNat 9 i) ∧
          u.entry .y (i - 1) = some (BitVec.ofNat 9 (polyAt s t i))) ∧
        (∀ k, n ≤ k → u.entry .x k = s.entry .x k ∧ u.entry .y k = s.entry .y k) ∧
        (∀ k, u.entry .c k = s.entry .c k) ∧
        SameF s u ∧ SameRecord s u ∧ SameOutside s u ∧ Counted s u) ∧
    (1 ≤ t → t ≤ n → n ≤ 255 → ¬ CoeffsWritten s t →
      ∃ k < t, s.entry .c k = none ∧ exec (.split n t) s = .fault (.unwrittenEntry .c k))

/-- R101: PEVAL and SPLIT read C[0..t-1], fault when one of those was never written, and read nothing else of C. -/
def Obligations.CoefficientsBeyondThresholdUnread : Prop :=
  ∀ (s s' : State) (t : Nat), 1 ≤ t → (∀ r, s'.getF r = s.getF r) → (∀ k < t, s'.entry .c k = s.entry .c k) →
    (∀ rd rs1 : Reg,
      (CoeffsWritten s t → ∃ u u', exec (.peval rd rs1 t) s = .next u ∧ exec (.peval rd rs1 t) s' = .next u' ∧
        u'.getF rd = u.getF rd) ∧
      (¬ CoeffsWritten s t → ∃ k < t, s.entry .c k = none ∧
        exec (.peval rd rs1 t) s = .fault (.unwrittenEntry .c k))) ∧
    ∀ n, t ≤ n → n ≤ 255 →
      (CoeffsWritten s t → ∃ u u', exec (.split n t) s = .next u ∧ exec (.split n t) s' = .next u' ∧
        ∀ k < n, u'.entry .x k = u.entry .x k ∧ u'.entry .y k = u.entry .y k) ∧
      (¬ CoeffsWritten s t → ∃ k < t, s.entry .c k = none ∧ exec (.split n t) s = .fault (.unwrittenEntry .c k))

/-- 95_test_vectors.md section 4: PEVAL at x = i is the Y value SPLIT writes for share i. -/
def Obligations.PevalAgreesWithSplit : Prop :=
  ∀ (rd rs1 : Reg) (n t i : Nat) (s : State), 1 ≤ t → t ≤ n → n ≤ 255 → CoeffsWritten s t →
    1 ≤ i → i ≤ n → s.num rs1 = i →
    ∃ u v, exec (.split n t) s = .next u ∧ exec (.peval rd rs1 t) s = .next v ∧ u.entry .y (i - 1) = some (v.getF rd)

/-! ### Lagrange interpolation -/

/-- R110 with R17 and R111: the checks in order, and R17's sum in the residues modulo 257. -/
def Obligations.Lagr0InterpolatesAtZero : Prop :=
  RowOf 0x12#6 0x48000000#32 0xFC7F0000#32 (fun w => .lagr0 (rdOf w) (a8Of w) (b8Of w)) ∧
  ∀ (rd : Reg) (base count : Nat) (s : State),
    (count = 0 → ∃ u, exec (.lagr0 rd base count) s = .next u ∧ FailedWith .emptyInput 0x12#6 s u) ∧
    (1 ≤ count → 256 < base + count →
      ∃ u, exec (.lagr0 rd base count) s = .next u ∧ FailedWith .invalidParameters 0x12#6 s u) ∧
    (1 ≤ count → base + count ≤ 256 → WindowWritten s base count → ¬ DistinctXs s base count →
      ∃ u, exec (.lagr0 rd base count) s = .next u ∧ FailedWith .invalidShareSet 0x12#6 s u) ∧
    (1 ≤ count → base + count ≤ 256 → WindowWritten s base count → DistinctXs s base count →
      (∀ j < count, entryNum s .x (base + j) ≤ 256) →
      ∃ u, exec (.lagr0 rd base count) s = .next u ∧ (u.getF rd).toNat ≤ 256 ∧
        ((u.getF rd).toNat : ZMod 257) = lagrangeSum s base count ∧ WroteOnlyF rd s u)

/-- R115: a window with an entry never written faults the command, before INVALID_SHARE_SET is decided. -/
def Obligations.Lagr0FaultsOnUnwrittenPair : Prop :=
  ∀ (rd : Reg) (base count : Nat) (s : State), 1 ≤ count → base + count ≤ 256 → ¬ WindowWritten s base count →
    ∃ b k, (b = .x ∨ b = .y) ∧ base ≤ k ∧ k < base + count ∧ s.entry b k = none ∧
      exec (.lagr0 rd base count) s = .fault (.unwrittenEntry b k)

/-- R112: any canonical x is accepted, and an x of 0 in the window gives that pair's y. -/
def Obligations.Lagr0AcceptsZeroX : Prop :=
  ∀ (rd : Reg) (base count : Nat) (s : State), 1 ≤ count → base + count ≤ 256 → WindowWritten s base count →
    DistinctXs s base count →
    (∀ j < count, entryNum s .x (base + j) ≤ 256 ∧ entryNum s .y (base + j) ≤ 256) →
    ∃ u, exec (.lagr0 rd base count) s = .next u ∧ SameRecord s u ∧
      ∀ j < count, entryNum s .x (base + j) = 0 → (u.getF rd).toNat = entryNum s .y (base + j)

/-- R113: with at least t pairs of one polynomial of t coefficients, its constant term; with any pairs at all, some field
element and no signal. -/
def Obligations.EnoughSharesGiveConstantTerm : Prop :=
  (∀ (rd : Reg) (base count t : Nat) (a : Nat → Nat) (s : State), 1 ≤ t → t ≤ count → base + count ≤ 256 →
    a 0 ≤ 256 → WindowWritten s base count → DistinctXs s base count →
    (∀ j < count, entryNum s .x (base + j) ≤ 256 ∧
      entryNum s .y (base + j) = (∑ k ∈ Finset.range t, a k * entryNum s .x (base + j) ^ k) % 257) →
    ∃ u, exec (.lagr0 rd base count) s = .next u ∧ (u.getF rd).toNat = a 0 ∧ WroteOnlyF rd s u) ∧
  ∀ (rd : Reg) (base count : Nat) (s : State), 1 ≤ count → base + count ≤ 256 → WindowWritten s base count →
    DistinctXs s base count →
    ∃ u, exec (.lagr0 rd base count) s = .next u ∧ (u.getF rd).toNat ≤ 256 ∧ SameRecord s u

/-- 95_test_vectors.md section 4 and W2e, R103: what SPLIT writes, LAGR0 joins back to C[0], over any window of at least t
of the shares. -/
def Obligations.SplitThenJoinRecoversSecret : Prop :=
  ∀ (rd : Reg) (n t base count : Nat) (s : State), 1 ≤ t → t ≤ n → n ≤ 255 → t ≤ count → base + count ≤ n →
    CoeffsWritten s t → (∀ k < t, entryNum s .c k ≤ 256) →
    ∃ u v, exec (.split n t) s = .next u ∧ exec (.lagr0 rd base count) u = .next v ∧
      s.entry .c 0 = some (v.getF rd)

/-- R114: the order of the pairs in the window does not matter. -/
def Obligations.JoinIgnoresPairOrder : Prop :=
  ∀ (rd : Reg) (base count : Nat) (σ : Equiv.Perm (Fin count)) (s s' : State), 1 ≤ count → base + count ≤ 256 →
    WindowWritten s base count → DistinctXs s base count → (∀ j < count, entryNum s .x (base + j) ≤ 256) →
    (∀ j : Fin count, s'.entry .x (base + j) = s.entry .x (base + σ j) ∧
      s'.entry .y (base + j) = s.entry .y (base + σ j)) →
    ∃ u u', exec (.lagr0 rd base count) s = .next u ∧ exec (.lagr0 rd base count) s' = .next u' ∧
      u'.getF rd = u.getF rd

/-! ### Data movement -/

/-- R120. -/
def Obligations.LdiLoadsReducedImmediate : Prop :=
  RowOf 0x01#6 0x04000000#32 0xFC7FFE00#32 (fun w => .ldi (rdOf w) (imm9Of w)) ∧
  ∀ (rd : Reg) (imm : Nat) (s : State), ∃ t, exec (.ldi rd imm) s = .next t ∧
    (imm ≤ 511 → (t.getF rd).toNat = if imm ≤ 256 then imm else imm - 257) ∧ WroteOnlyF rd s t

/-- R121. -/
def Obligations.MovCopiesRegister : Prop :=
  RowOf 0x02#6 0x08000000#32 0xFC0FFFFF#32 (fun w => .mov (rdOf w) (rs1Of w)) ∧
  ∀ (rd rs1 : Reg) (s : State), ∃ t, exec (.mov rd rs1) s = .next t ∧ t.getF rd = s.getF rs1 ∧ WroteOnlyF rd s t

/-- R122. -/
def Obligations.CstStoresCoefficient : Prop :=
  RowOf 0x18#6 0x60000000#32 0xFF8FFF00#32 (fun w => .cst (idxOf w) (rs1Of w)) ∧
  ∀ (idx : Idx) (rs1 : Reg) (s : State), ∃ t, exec (.cst idx rs1) s = .next t ∧
    t.entry .c idx = some (s.getF rs1) ∧ (∀ b k, ¬ (b = .c ∧ k = idx.val) → t.entry b k = s.entry b k) ∧
    SameF s t ∧ SameRecord s t ∧ SameOutside s t ∧ Counted s t

/-- R124. -/
def Obligations.PstStoresPair : Prop :=
  RowOf 0x1A#6 0x68000000#32 0xFF81FF00#32 (fun w => .pst (idxOf w) (rs1Of w) (rs2Of w)) ∧
  ∀ (idx : Idx) (rs1 rs2 : Reg) (s : State), ∃ t, exec (.pst idx rs1 rs2) s = .next t ∧
    t.entry .x idx = some (s.getF rs1) ∧ t.entry .y idx = some (s.getF rs2) ∧
    (∀ b k, ¬ ((b = .x ∨ b = .y) ∧ k = idx.val) → t.entry b k = s.entry b k) ∧
    SameF s t ∧ SameRecord s t ∧ SameOutside s t ∧ Counted s t

/-- R123. -/
def Obligations.CldLoadsCoefficient : Prop :=
  RowOf 0x19#6 0x64000000#32 0xFC7FFF00#32 (fun w => .cld (rdOf w) (idxOf w)) ∧
  ∀ (rd : Reg) (idx : Idx) (s : State),
    (∀ v, s.entry .c idx = some v → ∃ t, exec (.cld rd idx) s = .next t ∧ t.getF rd = v ∧ WroteOnlyF rd s t) ∧
    (s.entry .c idx = none → exec (.cld rd idx) s = .fault (.unwrittenEntry .c idx))

/-- R125 and R126. -/
def Obligations.PldxPldyLoadPair : Prop :=
  RowOf 0x1B#6 0x6C000000#32 0xFC7FFF00#32 (fun w => .pldx (rdOf w) (idxOf w)) ∧
  RowOf 0x1C#6 0x70000000#32 0xFC7FFF00#32 (fun w => .pldy (rdOf w) (idxOf w)) ∧
  ∀ (rd : Reg) (idx : Idx) (s : State),
    (∀ v, s.entry .x idx = some v → ∃ t, exec (.pldx rd idx) s = .next t ∧ t.getF rd = v ∧ WroteOnlyF rd s t) ∧
    (∀ v, s.entry .y idx = some v → ∃ t, exec (.pldy rd idx) s = .next t ∧ t.getF rd = v ∧ WroteOnlyF rd s t) ∧
    (s.entry .x idx = none → exec (.pldx rd idx) s = .fault (.unwrittenEntry .x idx)) ∧
    (s.entry .y idx = none → exec (.pldy rd idx) s = .fault (.unwrittenEntry .y idx))

/-! ### Control and lifecycle -/

/-- R144. -/
def Obligations.NopOnlyCounts : Prop :=
  RowOf 0x00#6 0x00000000#32 0xFFFFFFFF#32 (fun _ => .nop) ∧
  ∀ s : State, ∃ t, exec .nop s = .next t ∧ SameF s t ∧ SameEntries s t ∧ SameRecord s t ∧ SameOutside s t ∧ Counted s t

/-- R146, with what a CMD write of its word and of any other word does while a record is held. -/
def Obligations.ClrerrClearsRecord : Prop :=
  RowOf 0x3F#6 0xFC000000#32 0xFFFFFFFF#32 (fun _ => .clrerr) ∧
  (∀ s : State, ∃ t, exec .clrerr s = .next t ∧ t.err = false ∧ t.errcode = .none ∧ t.errop = 0#6 ∧
    t.statusWord = 0#32 ∧ SameF s t ∧ SameEntries s t ∧ SameOutside s t ∧ Counted s t) ∧
  ∀ (s : State) (w : Word) (rest : List Event), s.inputs = hostWr 0x008 w :: rest → s.rst = false →
    s.busy = false → s.err = true → step s = .next (if w = 0xFC000000#32
      then { s with inputs := rest, latch := w, busy := true } else { s with inputs := rest })

/-- R142: when the completion comes next, the step is the decoded command's meaning, or ILLEGAL_COMMAND. -/
def Obligations.StepRunsDecodedCommand : Prop :=
  ∀ s : State, CompletionNext s →
    (∀ i, decode s.latch = .command i → step s = exec i (afterInput s)) ∧
    (∀ why, decode s.latch = .illegal why →
      step s = .next ((afterInput s).fail .illegalCommand (opcodeOf s.latch)))

/-- R142: the completion runs the decoded command's rule on the current state, or raises ILLEGAL_COMMAND; it clears BUSY,
and either counts the command (keeping the error record, unless it is CLRERR) or records an error of the word in flight with
no result; and between accept and completion no host transaction changes what the command reads. -/
def Obligations.CompletionCountsOrFails : Prop :=
  (∀ s t : State, CompletionNext s → step s = .next t →
    ((∃ i, decode s.latch = .command i ∧ exec i (afterInput s) = .next t) ∨
      (∃ why, decode s.latch = .illegal why) ∧ FailedWith .illegalCommand (opcodeOf s.latch) (afterInput s) t) ∧
    ((Counted s t ∧ SameOutside (afterInput s) t ∧
        (if s.latch = 0xFC000000#32 then t.err = false ∧ t.errcode = .none ∧ t.errop = 0#6 else SameRecord s t)) ∨
      ∃ e, e ≠ .none ∧ FailedWith e (opcodeOf s.latch) (afterInput s) t)) ∧
  ∀ (s t : State) (e : Event) (rest : List Event), s.inputs = e :: rest → s.rst = false → s.busy = true →
    e ≠ .coreTurn → (∀ level, e ≠ .rst level) → step s = .next t →
    SameF s t ∧ SameEntries s t ∧ t.latch = s.latch ∧ t.cmdcnt = s.cmdcnt ∧ t.busy = true

/-- R140, as a bus write to CMD. -/
def Obligations.CmdWriteAccepted : Prop :=
  ∀ (s : State) (w : Word) (rest : List Event), s.inputs = hostWr 0x008 w :: rest → s.rst = false →
    s.busy = false → (s.err = false ∨ w = 0xFC000000#32) →
    step s = .next { s with inputs := rest, latch := w, busy := true }

/-- R141, as a bus write to CMD. -/
def Obligations.CmdWriteDiscarded : Prop :=
  ∀ (s : State) (w : Word) (rest : List Event), s.inputs = hostWr 0x008 w :: rest → s.rst = false →
    (s.busy = true → s.err = false → step s = .next { s with
      inputs := rest, err := true, errcode := .busyViolation, errop := opcodeOf s.latch }) ∧
    (s.busy = true → s.err = true → step s = .next { s with inputs := rest }) ∧
    (s.busy = false → s.err = true → w ≠ 0xFC000000#32 → step s = .next { s with inputs := rest })

/-- R152 and R158: the first error wins, recording writes the record and nothing else, and a command that raises an error
leaves registers, buffers and CMDCNT as they stood. -/
def Obligations.FirstErrorWins : Prop :=
  ∀ (s : State) (e : ErrCode) (op : Opcode),
    (s.err = false → s.recordError e op = { s with err := true, errcode := e, errop := op }) ∧
    (s.err = true → s.recordError e op = s) ∧
    ∃ t, s.raise e op = .next t ∧ FailedWith e op s t

/-- R153: a write to CMD or a field-typed location while a command is in flight is not performed and recorded, with the
opcode in flight, unless a record is held; other writes and reads raise nothing; and the command that then fails keeps
the first record. -/
def Obligations.BusyWriteIsViolation : Prop :=
  (∀ (s : State) (off : Nat) (w : Word) (rest : List Event), s.inputs = hostWr off w :: rest → s.rst = false →
    s.busy = true → off < 4096 → off % 4 = 0 →
    (off = 0x008 ∨ (0x020 ≤ off ∧ off < 0x040) ∨ 0x400 ≤ off →
      (s.err = false → step s = .next { s with
        inputs := rest, err := true, errcode := .busyViolation, errop := opcodeOf s.latch }) ∧
      (s.err = true → step s = .next { s with inputs := rest })) ∧
    (¬ (off = 0x008 ∨ (0x020 ≤ off ∧ off < 0x040) ∨ 0x400 ≤ off) → step s = .next { s with inputs := rest })) ∧
  (∀ (s : State) (off : Nat) (rest : List Event), s.inputs = hostRd off :: rest → s.rst = false → s.busy = true →
    off < 4096 → off % 4 = 0 → ∃ t, step s = .next t ∧ SameRecord s t ∧ t.busy = true) ∧
  ∀ s t : State, CompletionNext s → s.err = true → s.latch ≠ 0xFC000000#32 → step s = .next t → SameRecord s t

/-- R156: a write to CMD or to a field-typed location and the completion, in both orders. Write first: BUSY_VIOLATION is
what the record holds after both, whatever the command. Completion first: the write is an ordinary write or command. -/
def Obligations.WriteAndCompletionOrders : Prop :=
  ∀ (s : State) (off : Nat) (w : Word) (rest : List Event), s.rst = false → s.busy = true → s.err = false →
    s.latch ≠ 0xFC000000#32 → off < 4096 → off % 4 = 0 →
    off = 0x008 ∨ (0x020 ≤ off ∧ off < 0x040) ∨ 0x400 ≤ off →
    (s.inputs = hostWr off w :: .coreTurn :: rest → ∀ t u, step s = .next t → step t = .next u →
      u.err = true ∧ u.errcode = .busyViolation ∧ u.errop = opcodeOf s.latch ∧ u.busy = false) ∧
    (s.inputs = .coreTurn :: hostWr off w :: rest → ∀ t u, step s = .next t → step t = .next u →
      t.busy = false ∧ (t.err = true → t.errcode ≠ .busyViolation) ∧ SameRecord t u ∧
      (off = 0x008 → t.err = false ∨ w = 0xFC000000#32 → u.busy = true ∧ u.latch = w) ∧
      (off ≠ 0x008 → u.busy = false ∧ u.latch = s.latch))

/-- R26 and R159: only the completion of CLRERR, or reset, clears ERR; and while ERR = 1 nothing else changes the
record. -/
def Obligations.OnlyClrerrOrResetClearsErr : Prop :=
  ∀ s t : State, s.err = true → step s = .next t →
    SameRecord s t ∨ (CompletionNext s ∧ s.latch = 0xFC000000#32) ∨ s.rst = true ∨
      s.inputs.head? = some (.rst true)

/-- R31: CMDCNT changes only when a command completes without error, and then by 1, or at reset. -/
def Obligations.CmdcntCountsSuccesses : Prop :=
  ∀ s t : State, step s = .next t → s.rst = false → s.inputs.head? ≠ some (.rst true) →
    t.cmdcnt = s.cmdcnt ∨
      (CompletionNext s ∧ (∃ i, decode s.latch = .command i ∧ exec i (afterInput s) = .next t) ∧
        t.cmdcnt = s.cmdcnt + 1#32 ∧ (SameRecord s t ∨ s.latch = 0xFC000000#32))

/-! ### Bus -/

/-- R24: the layout of STATUS, its legal codes, and that a write to it is ignored even while BUSY = 1. -/
def Obligations.StatusLayout : Prop :=
  (∀ (s : State) (rest : List Event), s.inputs = hostRd 0x004 :: rest → s.rst = false →
    ∃ t, step s = .next t ∧ t = { s with inputs := rest, rdata := t.rdata } ∧
      t.rdata.getLsbD 0 = s.busy ∧ t.rdata.getLsbD 1 = s.err ∧ t.rdata.extractLsb' 2 2 = 0#2 ∧
      t.rdata.extractLsb' 4 4 = s.errcode.code ∧ (t.rdata.extractLsb' 4 4).toNat ≤ 6 ∧
      t.rdata.extractLsb' 8 6 = s.errop ∧ t.rdata.extractLsb' 14 18 = 0#18) ∧
  ∀ (s : State) (w : Word) (rest : List Event), s.inputs = hostWr 0x004 w :: rest → s.rst = false →
    step s = .next { s with inputs := rest }

/-- R30 and R46, whatever BUSY is: ID is constant, reserved offsets read 0, and writes to them and to the read-only
registers are ignored. -/
def Obligations.ReadOnlyAndReservedOffsets : Prop :=
  ∀ (s : State) (off : Nat) (rest : List Event), s.rst = false → off < 4096 → off % 4 = 0 →
    (s.inputs = hostRd off :: rest → off = 0x000 → step s = .next { s with inputs := rest, rdata := 0x00070101#32 }) ∧
    (s.inputs = hostRd off :: rest → (0x010 ≤ off ∧ off ≤ 0x01C) ∨ (0x040 ≤ off ∧ off ≤ 0x3FC) →
      step s = .next { s with inputs := rest, rdata := 0#32 }) ∧
    ∀ w, s.inputs = hostWr off w :: rest →
      off = 0x000 ∨ off = 0x004 ∨ off = 0x00C ∨ (0x010 ≤ off ∧ off ≤ 0x01C) ∨ (0x040 ≤ off ∧ off ≤ 0x3FC) →
      step s = .next { s with inputs := rest }

/-- 20_memory.md section 3, the read column of the address map while BUSY = 0; R35's fault for an entry never written. -/
def Obligations.ReadsFollowAddressMap : Prop :=
  ∀ (s : State) (off : Nat) (rest : List Event), s.inputs = hostRd off :: rest → s.rst = false → s.busy = false →
    (off = 0x008 → step s = .next { s with inputs := rest, rdata := 0#32 }) ∧
    (off = 0x00C → step s = .next { s with inputs := rest, rdata := s.cmdcnt }) ∧
    (∀ i : Reg, off = 0x020 + 4 * i.val → step s = .next { s with
      inputs := rest, rdata := (s.getF i).setWidth 32 }) ∧
    ∀ (b : Buf) (k : Idx),
      (b = .c ∧ off = 0x400 + 4 * k.val) ∨ (b = .x ∧ off = 0x800 + 4 * k.val) ∨ (b = .y ∧ off = 0xC00 + 4 * k.val) →
      (∀ v, s.entry b k = some v → step s = .next { s with inputs := rest, rdata := v.setWidth 32 }) ∧
      (s.entry b k = none → step s = .fault (.unwrittenEntry b k))

/-- R47: a write to a field-typed location while BUSY = 0 stores the reduced low nine bits there and changes nothing else; a
read then gives the value with bits 31:9 zero; while BUSY = 1 a write is not performed and raises BUSY_VIOLATION. -/
def Obligations.FieldWritesAreReduced : Prop :=
  (∀ (s : State) (off : Nat) (rest : List Event), s.inputs = hostRd off :: rest → s.rst = false → s.busy = false →
    (∀ i : Reg, off = 0x020 + 4 * i.val → ∃ t, step s = .next t ∧ t.rdata = (s.getF i).setWidth 32) ∧
    ∀ (b : Buf) (k : Idx) (v : Elem),
      (b = .c ∧ off = 0x400 + 4 * k.val) ∨ (b = .x ∧ off = 0x800 + 4 * k.val) ∨ (b = .y ∧ off = 0xC00 + 4 * k.val) →
      s.entry b k = some v → ∃ t, step s = .next t ∧ t.rdata = v.setWidth 32) ∧
  ∀ (s : State) (off : Nat) (w : Word) (rest : List Event), s.inputs = hostWr off w :: rest → s.rst = false →
    (s.busy = false → ∀ i : Reg, off = 0x020 + 4 * i.val → ∃ t, step s = .next t ∧
      (t.getF i).toNat = (if w.toNat % 512 ≤ 256 then w.toNat % 512 else w.toNat % 512 - 257) ∧
      SameFExcept i s t ∧ SameEntries s t ∧ SameRecord s t ∧ SameOutside (afterInput s) t ∧
      t.cmdcnt = s.cmdcnt ∧ t.busy = false) ∧
    (s.busy = false → ∀ (b : Buf) (k : Idx),
      (b = .c ∧ off = 0x400 + 4 * k.val) ∨ (b = .x ∧ off = 0x800 + 4 * k.val) ∨ (b = .y ∧ off = 0xC00 + 4 * k.val) →
      ∃ t v, step s = .next t ∧ t.entry b k = some v ∧
        v.toNat = (if w.toNat % 512 ≤ 256 then w.toNat % 512 else w.toNat % 512 - 257) ∧
        (∀ b' k', ¬ (b' = b ∧ k' = k.val) → t.entry b' k' = s.entry b' k') ∧
        SameF s t ∧ SameRecord s t ∧ SameOutside (afterInput s) t ∧ t.cmdcnt = s.cmdcnt ∧ t.busy = false) ∧
    (s.busy = true → off % 4 = 0 → (0x020 ≤ off ∧ off < 0x040) ∨ (0x400 ≤ off ∧ off < 4096) →
      step s = .next ((afterInput s).recordError .busyViolation (opcodeOf s.latch)))

/-- R186: while BUSY = 1 a read of a field-typed location is a free draw, the same field of `Config` whatever the core
holds, with no side effect and no error; the other offsets stay exact. -/
def Obligations.BusyReadsAreFree : Prop :=
  ∀ (s : State) (off : Nat) (rest : List Event), s.inputs = hostRd off :: rest → s.rst = false → s.busy = true →
    off < 4096 → off % 4 = 0 →
    ((0x020 ≤ off ∧ off < 0x040) ∨ 0x400 ≤ off →
      step s = .next { s with inputs := rest, rdata := Config.busyRead s.draws, draws := s.draws + 1 }) ∧
    (off = 0x000 → step s = .next { s with inputs := rest, rdata := 0x00070101#32 }) ∧
    (off = 0x004 → step s = .next { s with inputs := rest, rdata := s.statusWord }) ∧
    (off = 0x008 → step s = .next { s with inputs := rest, rdata := 0#32 }) ∧
    (off = 0x00C → step s = .next { s with inputs := rest, rdata := s.cmdcnt }) ∧
    ((0x010 ≤ off ∧ off ≤ 0x01C) ∨ (0x040 ≤ off ∧ off ≤ 0x3FC) → step s = .next { s with inputs := rest, rdata := 0#32 })

/-- R48: no read changes the core; a read repeated while BUSY = 0 gives the same value; a write to a field-typed location
repeated changes nothing more; each CMD write offers one command. -/
def Obligations.ReadsHaveNoSideEffect : Prop :=
  (∀ (s t : State) (addr : Nat) (size : Size) (rest : List Event), s.inputs = .read addr size :: rest →
    step s = .next t → t = { s with inputs := rest, rdata := t.rdata, draws := t.draws }) ∧
  (∀ (s t u : State) (addr : Nat) (rest : List Event), s.inputs = .read addr .word :: .read addr .word :: rest →
    s.busy = false → step s = .next t → step t = .next u → u.rdata = t.rdata) ∧
  (∀ (s t u : State) (off : Nat) (w : Word) (rest : List Event), s.inputs = hostWr off w :: hostWr off w :: rest →
    off < 4096 → (0x020 ≤ off ∧ off < 0x040) ∨ 0x400 ≤ off → step s = .next t → step t = .next u →
    SameF t u ∧ SameEntries t u ∧ SameRecord t u) ∧
  ∀ (s : State) (w : Word) (rest : List Event), s.inputs = hostWr 0x008 w :: .coreTurn :: hostWr 0x008 w :: rest →
    s.rst = false → s.busy = false → s.err = false → w = 0#32 →
    ∃ t u v, step s = .next t ∧ step t = .next u ∧ step u = .next v ∧ u.cmdcnt = s.cmdcnt + 1#32 ∧ v.busy = true

/-- 20_memory.md section 2: a misaligned 32-bit access is refused as misaligned, and an access of another width, or a write
with partial byte enables, as sub-word, misaligned or not. The spec refuses an access that is both and names no order; that
it is refused as sub-word is the model's choice (DESIGN CHOICE, log entry 13). -/
def Obligations.MalformedAccessRefused : Prop :=
  (∀ (s : State) (off : Nat) (w : Word) (rest : List Event), s.rst = false → off < 4096 → off % 4 ≠ 0 →
    (s.inputs = hostRd off :: rest → step s = .refused .misalignedAccess) ∧
    (s.inputs = hostWr off w :: rest → step s = .refused .misalignedAccess)) ∧
  ∀ (s : State) (off : Nat) (size : Size) (enables : BitVec 4) (w : Word) (rest : List Event), s.rst = false →
    off < 4096 →
    (s.inputs = .read (Config.base + off) size :: rest → size ≠ .word → step s = .refused .subWordAccess) ∧
    (s.inputs = .write (Config.base + off) size enables w :: rest → size ≠ .word ∨ enables ≠ 0xF#4 →
      step s = .refused .subWordAccess)

/-- 20_memory.md sections 1 and 3: what lies outside the window is the platform's, and does not touch the core. That such an
access is not refused, and that an access is judged by its start address, so that one starting just below BASE and reaching
into the window counts as outside, are the model's choices (DESIGN CHOICE, log entries 7 and 19). -/
def Obligations.OutsideWindowUntouched : Prop :=
  ∀ (s : State) (addr : Nat) (size : Size) (enables : BitVec 4) (w : Word) (rest : List Event),
    addr < Config.base ∨ Config.base + 4096 ≤ addr →
    (s.inputs = .read addr size :: rest → step s = .next { s with inputs := rest }) ∧
    (s.inputs = .write addr size enables w :: rest → step s = .next { s with inputs := rest })

/-! ### Reset -/

/-- R36, for the state right after reset; ID reads its constant and CMD reads 0. -/
def Obligations.ResetValues : Prop :=
  (∀ i, State.reset.getF i = 0#9) ∧ State.reset.statusWord = 0#32 ∧ State.reset.busy = false ∧
  State.reset.err = false ∧ State.reset.errcode = .none ∧ State.reset.errop = 0#6 ∧ State.reset.cmdcnt = 0#32 ∧
  (∀ b k, State.reset.entry b k = none) ∧
  ∀ rest : List Event,
    step { State.reset with inputs := hostRd 0x000 :: rest } =
      .next { State.reset with inputs := rest, rdata := 0x00070101#32 } ∧
    step { State.reset with inputs := hostRd 0x008 :: rest } = .next { State.reset with inputs := rest, rdata := 0#32 }

/-- R181: asserting or releasing reset puts every piece of the core's state at its reset value and abandons a command in
flight; a transaction while reset is asserted is refused. -/
def Obligations.ResetPutsEverythingBack : Prop :=
  (∀ (s : State) (level : Bool) (rest : List Event), s.inputs = .rst level :: rest → level = true ∨ s.rst = true →
    ∃ t, step s = .next t ∧ t.rst = level ∧ t.inputs = rest ∧ (∀ i, t.getF i = 0#9) ∧ t.busy = false ∧ t.err = false ∧
      t.errcode = .none ∧ t.errop = 0#6 ∧ t.statusWord = 0#32 ∧ t.cmdcnt = 0#32 ∧ ∀ b k, t.entry b k = none) ∧
  ∀ (s : State) (off : Nat) (size : Size) (enables : BitVec 4) (w : Word) (rest : List Event), s.rst = true →
    off < 4096 →
    (s.inputs = .read (Config.base + off) size :: rest → step s = .refused .busDuringReset) ∧
    (s.inputs = .write (Config.base + off) size enables w :: rest → step s = .refused .busDuringReset)

/-- R182: the first CMD write after reset is accepted at once. -/
def Obligations.ReadyAfterReset : Prop :=
  ∀ (w : Word) (s : State) (rest : List Event), s.inputs = .rst false :: hostWr 0x008 w :: rest → s.rst = true →
    ∃ t u, step s = .next t ∧ step t = .next u ∧ u.busy = true ∧ u.latch = w

/-! ### The whole machine -/

/-- Every stored value is canonical, the buffers keep their form, STATUS holds no half record, and reset holds the state:
every step keeps this (R20, R21, R27, R28, R181). -/
def Obligations.StepKeepsInvariant : Prop :=
  ∀ s t : State, Inv s → step s = .next t → Inv t

/-- The invariant holds right after reset. -/
def Obligations.ResetMeetsInvariant : Prop := Inv State.reset

/-- 70_reset_and_hazards.md section 3 and R35: a command answers a next state, no longer in flight, exactly when every entry
it reads has been written; otherwise it faults on such an entry. No command is refused. -/
def Obligations.CommandRunsIffReadsWritten : Prop :=
  ∀ (i : Instr) (s : State),
    (ReadsWritten i s → ∃ t, exec i s = .next t ∧ t.busy = false ∧ SameOutside s t) ∧
    (¬ ReadsWritten i s → ∃ b k, (b, k) ∈ i.reads ∧ s.entry b k = none ∧ exec i s = .fault (.unwrittenEntry b k))

/-- R101, R110 (entries outside the window are not read) and R41: what a command writes depends on the field registers and
the entries it reads, and on nothing else. -/
def Obligations.CommandsReadOnlyTheirOperands : Prop :=
  ∀ (i : Instr) (s s' t : State), (∀ r, s'.getF r = s.getF r) → (∀ p ∈ i.reads, s'.entry p.1 p.2 = s.entry p.1 p.2) →
    exec i s = .next t → ∃ t', exec i s' = .next t' ∧ SameF t t' ∧
      ∀ b k, t.entry b k ≠ s.entry b k → t'.entry b k = t.entry b k
end

