-- ==== Sys2Proof/Laws/Arith.lean ====
section
/-! SUPPORT. What the functions of Arith.lean compute, said once in ordinary arithmetic and in the residues modulo 257. -/

namespace Sys2Proof.Machine

/-! ### modP (R11) -/

theorem modP_cast_int (v : Int) : (modP v : Int) = v % 257 :=
  Int.toNat_of_nonneg (Int.emod_nonneg v (by decide))

theorem modP_lt (v : Int) : modP v < 257 := by
  have h := modP_cast_int v
  have := Int.emod_lt_of_pos v (show (0 : Int) < 257 by decide)
  omega

theorem modP_natCast (n : Nat) : modP (n : Int) = n % 257 := by
  have h := modP_cast_int n
  omega

/-- Reducing does not change the residue. -/
theorem modP_cast_zmod (v : Int) : ((modP v : Nat) : ZMod 257) = (v : ZMod 257) := by
  have h : ((modP v : Int) : ZMod 257) = ((v % 257 : Int) : ZMod 257) := by rw [modP_cast_int]
  rw [Int.cast_natCast] at h
  rw [h]
  exact ZMod.intCast_mod v 257

/-- Two numbers in 0..256 with the same residue are equal. -/
theorem eq_of_cast_zmod {a b : Nat} (ha : a < 257) (hb : b < 257) (h : (a : ZMod 257) = (b : ZMod 257)) : a = b := by
  have h' := (ZMod.natCast_eq_natCast_iff' a b 257).mp h
  rwa [Nat.mod_eq_of_lt ha, Nat.mod_eq_of_lt hb] at h'

/-- 257 is prime (R8). -/
theorem prime_P : Nat.Prime 257 := by norm_num

/-! ### Narrowing to nine bits -/

theorem toElem_toNat {v : Nat} (h : v < 512) : (toElem v).toNat = v := by
  simp only [toElem, BitVec.toNat_ofNat]
  exact Nat.mod_eq_of_lt h

theorem toElem_modP_toNat (v : Int) : (toElem (modP v)).toNat = modP v :=
  toElem_toNat (by have := modP_lt v; omega)

/-! ### powmod (R14) -/

theorem powmod_eq (b e : Nat) : powmod b e = b ^ e % 257 := by
  unfold powmod
  split
  · simp_all
  · rfl

theorem powmod_lt (b e : Nat) : powmod b e < 257 := by
  rw [powmod_eq]; exact Nat.mod_lt _ (by decide)

/-! ### inv (R15) -/

/-- Whether `inv a` lies in 1..256 and multiplies `a` to 1. -/
def invGood (a : Nat) : Bool :=
  match (List.range' 1 256).find? (fun v => a * v % Config.P == 1) with
  | some v => decide (1 ≤ v) && decide (v ≤ 256) && decide (a * v % 257 = 1)
  | none => false

theorem invGood_all : ∀ a < 257, a ≠ 0 → invGood a = true := by decide +kernel

theorem inv_spec {a : Nat} (h1 : 1 ≤ a) (h2 : a ≤ 256) : 1 ≤ inv a ∧ inv a ≤ 256 ∧ a * inv a % 257 = 1 := by
  have h := invGood_all a (by omega) (by omega)
  unfold invGood at h
  unfold inv
  cases hv : (List.range' 1 256).find? (fun v => a * v % Config.P == 1) with
  | some v =>
    simp only [hv, Bool.and_eq_true, decide_eq_true_eq] at h
    exact ⟨h.1.1, h.1.2, h.2⟩
  | none => simp [hv] at h

/-- The inverse as the inverse of the residue. -/
theorem inv_cast_zmod {a : Nat} (h1 : 1 ≤ a) (h2 : a ≤ 256) : ((inv a : Nat) : ZMod 257) = (a : ZMod 257)⁻¹ := by
  have : Fact (Nat.Prime 257) := ⟨prime_P⟩
  have h := (inv_spec h1 h2).2.2
  have hm : ((a * inv a : Nat) : ZMod 257) = ((1 : Nat) : ZMod 257) :=
    (ZMod.natCast_eq_natCast_iff' _ _ _).mpr (by rw [h])
  push_cast at hm
  exact eq_inv_of_mul_eq_one_right hm

/-- An inverse is unique in 1..256 (R15). -/
theorem inv_unique {a v : Nat} (h1 : 1 ≤ a) (h2 : a ≤ 256) (hv : v ≤ 256) (h : a * v % 257 = 1) : v = inv a := by
  have : Fact (Nat.Prime 257) := ⟨prime_P⟩
  have hm : ((a * v : Nat) : ZMod 257) = ((1 : Nat) : ZMod 257) :=
    (ZMod.natCast_eq_natCast_iff' _ _ _).mpr (by rw [h])
  push_cast at hm
  have hs := inv_spec h1 h2
  exact eq_of_cast_zmod (by omega) (by omega) ((eq_inv_of_mul_eq_one_right hm).trans (inv_cast_zmod h1 h2).symm)

/-! ### horner (R16) -/

/-- In the residues, `horner` is the sum of `C[k] * x^k`. -/
theorem horner_cast_zmod (cs : List Nat) (x : Nat) :
    ((horner cs x : Nat) : ZMod 257) =
      ∑ k ∈ Finset.range cs.length, ((cs.getD k 0 : Nat) : ZMod 257) * (x : ZMod 257) ^ k := by
  fun_induction horner cs x with
  | case1 => simp
  | case2 x c => simp
  | case3 x c d cs ih =>
    rw [modP_cast_zmod, Int.cast_natCast, Nat.cast_add, Nat.cast_mul, ih]
    conv_rhs => rw [List.length_cons, Finset.sum_range_succ']
    simp only [List.getD_cons_succ, List.getD_cons_zero, pow_zero, mul_one, pow_succ, Finset.sum_mul, mul_assoc]

theorem horner_le {cs : List Nat} (x : Nat) (h : ∀ c ∈ cs, c ≤ 256) : horner cs x ≤ 256 := by
  fun_induction horner cs x with
  | case1 => simp
  | case2 c x => exact h _ (List.mem_singleton_self _)
  | case3 x c d cs ih => exact Nat.le_of_lt_succ (modP_lt _)

/-! ### lagrange0 (R17) -/

theorem foldl_skip_cast (g : Nat → Int) (i : Nat) (xs : List Nat) (k acc : Nat) :
    (((xs.zipIdx k).foldl (fun num p => if p.2 = i then num else modP ((num : Int) * g p.1)) acc : Nat) : ZMod 257) =
      (acc : ZMod 257) * ∏ j ∈ Finset.range xs.length, if k + j = i then 1 else ((g (xs.getD j 0) : Int) : ZMod 257) := by
  induction xs generalizing k acc with
  | nil => simp
  | cons x xs ih =>
    simp only [List.zipIdx_cons, List.foldl_cons, ih, List.length_cons, Finset.prod_range_succ', List.getD_cons_succ,
      List.getD_cons_zero, Nat.add_zero]
    have hk : ∀ j, k + 1 + j = k + (j + 1) := fun j => by omega
    simp only [hk]
    split
    · rw [mul_one]
    · rw [modP_cast_zmod]; push_cast; ring

theorem prod_skip (f : Nat → ZMod 257) (n i : Nat) :
    (∏ j ∈ Finset.range n, if j = i then 1 else f j) = ∏ j ∈ (Finset.range n).erase i, f j := by
  rw [← Finset.prod_erase (Finset.range n) (a := i) (by simp)]
  exact Finset.prod_congr rfl fun j hj => if_neg (Finset.ne_of_mem_erase hj)

theorem lagNum_cast (xs : List Nat) (i : Nat) :
    ((lagNum xs i : Nat) : ZMod 257) = ∏ j ∈ (Finset.range xs.length).erase i, -((xs.getD j 0 : Nat) : ZMod 257) := by
  unfold lagNum
  rw [foldl_skip_cast (fun x => (modP (0 - (x : Int)) : Nat)) i xs 0 1, ← prod_skip]
  simp [modP_cast_zmod]

theorem lagDen_cast (xs : List Nat) (xi i : Nat) :
    ((lagDen xs xi i : Nat) : ZMod 257) =
      ∏ j ∈ (Finset.range xs.length).erase i, ((xi : ZMod 257) - ((xs.getD j 0 : Nat) : ZMod 257)) := by
  unfold lagDen
  rw [foldl_skip_cast (fun x => (modP ((xi : Int) - (x : Int)) : Nat)) i xs 0 1, ← prod_skip]
  simp [modP_cast_zmod]

theorem foldl_skip_lt (g : Nat → Int) (i : Nat) (ps : List (Nat × Nat)) (acc : Nat) (h : acc < 257) :
    ps.foldl (fun num p => if p.2 = i then num else modP ((num : Int) * g p.1)) acc < 257 := by
  induction ps generalizing acc with
  | nil => exact h
  | cons p ps ih =>
    simp only [List.foldl_cons]
    split
    · exact ih _ h
    · exact ih _ (modP_lt _)

theorem lagDen_lt (xs : List Nat) (xi i : Nat) : lagDen xs xi i < 257 :=
  foldl_skip_lt (fun x => (modP ((xi : Int) - (x : Int)) : Nat)) i _ 1 (by decide)

theorem foldl_add_cast (g : (Nat × Nat) × Nat → Int) (ps : List (Nat × Nat)) (k acc : Nat) :
    (((ps.zipIdx k).foldl (fun acc p => modP ((acc : Int) + g p)) acc : Nat) : ZMod 257) =
      (acc : ZMod 257) + ∑ j ∈ Finset.range ps.length, ((g (ps.getD j (0, 0), k + j) : Int) : ZMod 257) := by
  induction ps generalizing k acc with
  | nil => simp
  | cons p ps ih =>
    simp only [List.zipIdx_cons, List.foldl_cons, ih, List.length_cons, Finset.sum_range_succ', List.getD_cons_succ,
      List.getD_cons_zero, Nat.add_zero]
    have hk : ∀ j, k + 1 + j = k + (j + 1) := fun j => by omega
    simp only [hk]
    rw [modP_cast_zmod]; push_cast; ring

theorem foldl_add_lt (g : (Nat × Nat) × Nat → Int) (ps : List ((Nat × Nat) × Nat)) (acc : Nat) (h : acc < 257) :
    ps.foldl (fun acc p => modP ((acc : Int) + g p)) acc < 257 := by
  induction ps generalizing acc with
  | nil => exact h
  | cons p ps ih => exact ih _ (modP_lt _)

theorem lagrange0_lt (xs ys : List Nat) : lagrange0 xs ys < 257 :=
  foldl_add_lt (fun p => (p.1.2 * lagNum xs p.2 * inv (lagDen xs p.1.1 p.2) : Int)) _ 0 (by decide)

/-- In the residues, `lagrange0` of distinct canonical x values is the sum R17 gives. -/
theorem lagrange0_cast (xs ys : List Nat) (hl : xs.length = ys.length) (hx : ∀ x ∈ xs, x ≤ 256) (hd : xs.Nodup) :
    ((lagrange0 xs ys : Nat) : ZMod 257) =
      ∑ i ∈ Finset.range xs.length, ((ys.getD i 0 : Nat) : ZMod 257) *
        (∏ j ∈ (Finset.range xs.length).erase i, -((xs.getD j 0 : Nat) : ZMod 257)) *
        (∏ j ∈ (Finset.range xs.length).erase i,
          (((xs.getD i 0 : Nat) : ZMod 257) - ((xs.getD j 0 : Nat) : ZMod 257)))⁻¹ := by
  have : Fact (Nat.Prime 257) := ⟨prime_P⟩
  unfold lagrange0
  rw [foldl_add_cast (fun p => (p.1.2 * lagNum xs p.2 * inv (lagDen xs p.1.1 p.2) : Int)) (xs.zip ys) 0 0]
  simp only [Nat.cast_zero, zero_add, List.length_zip, ← hl, min_self]
  refine Finset.sum_congr rfl fun i hi => ?_
  have hi' : i < xs.length := Finset.mem_range.mp hi
  have hp : (xs.zip ys).getD i (0, 0) = (xs.getD i 0, ys.getD i 0) := by
    simp [List.getD_eq_getElem?_getD, hi', hl ▸ hi']
  rw [hp]
  have hden : ((lagDen xs (xs.getD i 0) i : Nat) : ZMod 257) ≠ 0 := by
    rw [lagDen_cast, Finset.prod_ne_zero_iff]
    intro j hj
    have hj' : j < xs.length := Finset.mem_range.mp (Finset.mem_of_mem_erase hj)
    rw [sub_ne_zero]
    intro he
    have hxi : xs.getD i 0 = xs[i] := by simp [List.getD_eq_getElem?_getD, hi']
    have hxj : xs.getD j 0 = xs[j] := by simp [List.getD_eq_getElem?_getD, hj']
    have h1 := hx _ (List.getElem_mem hi')
    have h2 := hx _ (List.getElem_mem hj')
    have := eq_of_cast_zmod (by omega) (by omega) he
    rw [hxi, hxj] at this
    exact Finset.ne_of_mem_erase hj ((List.Nodup.getElem_inj_iff hd).mp this).symm
  have hden0 : lagDen xs (xs.getD i 0) i ≠ 0 := fun h => hden (by rw [h]; simp)
  have hlt := lagDen_lt xs (xs.getD i 0) i
  push_cast
  rw [inv_cast_zmod (by omega) (by omega), lagNum_cast, lagDen_cast]

end Sys2Proof.Machine
end

