-- ==== Sys2Proof/Laws/Decode.lean ====
section
/-! SUPPORT. The decoder, row by row, and what the fields of a packed word are. -/

namespace Sys2Proof

/-! ### The decoder -/

/-- A word that selects a row whose mask covers the opcode has that row's opcode. -/
theorem opcodeOf_of_match {w mask pattern : Word} (hm : mask.extractLsb' 26 6 = BitVec.allOnes 6)
    (h : w &&& mask = pattern) : opcodeOf w = opcodeOf pattern := by
  subst h
  unfold opcodeOf
  rw [BitVec.extractLsb'_and, hm, BitVec.and_allOnes]

/-- What every row of the map satisfies: its mask covers the opcode, its pattern has its opcode, and the search for that
opcode finds it. -/
theorem opcodeMap_row {r : Row} (hr : r ∈ opcodeMap) :
    r.mask.extractLsb' 26 6 = BitVec.allOnes 6 ∧ opcodeOf r.pattern = r.op ∧
      opcodeMap.find? (fun q => q.op == r.op) = some r := by
  simp only [opcodeMap, List.mem_cons, List.not_mem_nil, or_false] at hr
  rcases hr with rfl | rfl | rfl | rfl | rfl | rfl | rfl | rfl | rfl | rfl | rfl | rfl | rfl | rfl | rfl | rfl | rfl | rfl
  all_goals exact ⟨by decide, by decide, rfl⟩

/-- A word of a row's opcode: the row's command, or a reserved bit. -/
theorem decode_of_opcode {r : Row} (hr : r ∈ opcodeMap) {w : Word} (h : opcodeOf w = r.op) :
    decode w = if w &&& r.mask = r.pattern then .command (r.build w) else .illegal .reservedBit := by
  unfold decode
  rw [h, (opcodeMap_row hr).2.2]

/-- A word that selects a row decodes to its command. -/
theorem decode_of_match {r : Row} (hr : r ∈ opcodeMap) {w : Word} (h : w &&& r.mask = r.pattern) :
    decode w = .command (r.build w) := by
  have hrow := opcodeMap_row hr
  rw [decode_of_opcode hr ((opcodeOf_of_match hrow.1 h).trans hrow.2.1), if_pos h]

/-- A word whose opcode no row has is illegal. -/
theorem decode_of_reserved {w : Word} (h : ∀ r ∈ opcodeMap, opcodeOf w ≠ r.op) :
    decode w = .illegal .reservedOpcode := by
  unfold decode
  rw [List.find?_eq_none.mpr]
  intro r hr
  simpa using fun he => h r hr he.symm

/-- Everything decoding can give. -/
theorem decode_cases (w : Word) :
    (∃ r ∈ opcodeMap, w &&& r.mask = r.pattern ∧ opcodeOf w = r.op ∧ decode w = .command (r.build w)) ∨
    (∃ r ∈ opcodeMap, w &&& r.mask ≠ r.pattern ∧ opcodeOf w = r.op ∧ decode w = .illegal .reservedBit) ∨
    ((∀ r ∈ opcodeMap, opcodeOf w ≠ r.op) ∧ decode w = .illegal .reservedOpcode) := by
  by_cases h : ∃ r ∈ opcodeMap, opcodeOf w = r.op
  · obtain ⟨r, hr, ho⟩ := h
    have hd := decode_of_opcode hr ho
    by_cases hm : w &&& r.mask = r.pattern
    · exact .inl ⟨r, hr, hm, ho, by rw [hd, if_pos hm]⟩
    · exact .inr (.inl ⟨r, hr, hm, ho, by rw [hd, if_neg hm]⟩)
  · have h' : ∀ r ∈ opcodeMap, opcodeOf w ≠ r.op := fun r hr he => h ⟨r, hr, he⟩
    exact .inr (.inr ⟨h', decode_of_reserved h'⟩)

/-! ### The fields of a packed word -/

/-- A packed word as a number: each field at its place (R61). -/
theorem packWord_toNat (op : Opcode) (rd rs1 rs2 : Reg) (low : BitVec 16) :
    (packWord op rd rs1 rs2 low).toNat =
      op.toNat * 2 ^ 26 + rd.val * 2 ^ 23 + rs1.val * 2 ^ 20 + rs2.val * 2 ^ 17 + low.toNat := by
  have hd := rd.isLt
  have h1 := rs1.isLt
  have h2 := rs2.isLt
  have hl := low.isLt
  show (op ++ (BitVec.ofFin rd : BitVec 3) ++ (BitVec.ofFin rs1 : BitVec 3) ++ (BitVec.ofFin rs2 : BitVec 3) ++ 0#1 ++
    low).toNat = _
  simp only [BitVec.toNat_append, BitVec.toNat_ofFin, BitVec.toNat_ofNat]
  rw [← Nat.shiftLeft_add_eq_or_of_lt (i := 3) (b := rd.val) (by omega),
    ← Nat.shiftLeft_add_eq_or_of_lt (i := 3) (b := rs1.val) (by omega),
    ← Nat.shiftLeft_add_eq_or_of_lt (i := 3) (b := rs2.val) (by omega),
    ← Nat.shiftLeft_add_eq_or_of_lt (i := 1) (by decide), ← Nat.shiftLeft_add_eq_or_of_lt (i := 16) (by omega)]
  simp only [Nat.shiftLeft_eq]
  omega

theorem opcodeOf_packWord (op : Opcode) (rd rs1 rs2 : Reg) (low : BitVec 16) :
    opcodeOf (packWord op rd rs1 rs2 low) = op := by
  apply BitVec.eq_of_toNat_eq
  unfold opcodeOf
  rw [BitVec.extractLsb'_toNat, packWord_toNat, Nat.shiftRight_eq_div_pow]
  omega

theorem rdOf_packWord (op : Opcode) (rd rs1 rs2 : Reg) (low : BitVec 16) :
    rdOf (packWord op rd rs1 rs2 low) = rd := by
  apply Fin.ext
  show ((packWord op rd rs1 rs2 low).extractLsb' 23 3).toNat = _
  rw [BitVec.extractLsb'_toNat, packWord_toNat, Nat.shiftRight_eq_div_pow]
  omega

theorem rs1Of_packWord (op : Opcode) (rd rs1 rs2 : Reg) (low : BitVec 16) :
    rs1Of (packWord op rd rs1 rs2 low) = rs1 := by
  apply Fin.ext
  show ((packWord op rd rs1 rs2 low).extractLsb' 20 3).toNat = _
  rw [BitVec.extractLsb'_toNat, packWord_toNat, Nat.shiftRight_eq_div_pow]
  omega

theorem rs2Of_packWord (op : Opcode) (rd rs1 rs2 : Reg) (low : BitVec 16) :
    rs2Of (packWord op rd rs1 rs2 low) = rs2 := by
  apply Fin.ext
  show ((packWord op rd rs1 rs2 low).extractLsb' 17 3).toNat = _
  rw [BitVec.extractLsb'_toNat, packWord_toNat, Nat.shiftRight_eq_div_pow]
  omega

/-- Any field inside bits 15:0 of a packed word is that field of `low`. -/
theorem low_packWord (op : Opcode) (rd rs1 rs2 : Reg) (low : BitVec 16) (lo w : Nat) (h : lo + w ≤ 16) :
    (packWord op rd rs1 rs2 low).extractLsb' lo w = low.extractLsb' lo w := by
  apply BitVec.eq_of_getLsbD_eq
  intro i hi
  have hw : ∀ j < 16, (packWord op rd rs1 rs2 low).getLsbD j = low.getLsbD j := by
    intro j hj
    rw [BitVec.getLsbD, BitVec.getLsbD, packWord_toNat,
      show op.toNat * 2 ^ 26 + rd.val * 2 ^ 23 + rs1.val * 2 ^ 20 + rs2.val * 2 ^ 17 + low.toNat =
        2 ^ 16 * (op.toNat * 2 ^ 10 + rd.val * 2 ^ 7 + rs1.val * 2 ^ 4 + rs2.val * 2) + low.toNat by omega,
      Nat.testBit_two_pow_mul_add _ low.isLt, if_pos hj]
  rw [BitVec.getLsbD_extractLsb', BitVec.getLsbD_extractLsb', hw _ (by omega)]

end Sys2Proof
end

