-- ==== Sys2Proof/Laws/State.lean ====
section
/-! SUPPORT. One lemma per field per named update of State, and how the accessors `getF`, `num` and `entry` see each
update, so that no proof unfolds a record update. -/

namespace Sys2Proof.Machine

/-! ### `setF` -/

@[simp] theorem State.setF_f (s : State) (i : Reg) (v : Elem) : (s.setF i v).f = s.f.set i v := rfl
@[simp] theorem State.setF_busy (s : State) (i : Reg) (v : Elem) : (s.setF i v).busy = s.busy := rfl
@[simp] theorem State.setF_err (s : State) (i : Reg) (v : Elem) : (s.setF i v).err = s.err := rfl
@[simp] theorem State.setF_errcode (s : State) (i : Reg) (v : Elem) : (s.setF i v).errcode = s.errcode := rfl
@[simp] theorem State.setF_errop (s : State) (i : Reg) (v : Elem) : (s.setF i v).errop = s.errop := rfl
@[simp] theorem State.setF_latch (s : State) (i : Reg) (v : Elem) : (s.setF i v).latch = s.latch := rfl
@[simp] theorem State.setF_cmdcnt (s : State) (i : Reg) (v : Elem) : (s.setF i v).cmdcnt = s.cmdcnt := rfl
@[simp] theorem State.setF_bufC (s : State) (i : Reg) (v : Elem) : (s.setF i v).bufC = s.bufC := rfl
@[simp] theorem State.setF_bufX (s : State) (i : Reg) (v : Elem) : (s.setF i v).bufX = s.bufX := rfl
@[simp] theorem State.setF_bufY (s : State) (i : Reg) (v : Elem) : (s.setF i v).bufY = s.bufY := rfl
@[simp] theorem State.setF_rst (s : State) (i : Reg) (v : Elem) : (s.setF i v).rst = s.rst := rfl
@[simp] theorem State.setF_inputs (s : State) (i : Reg) (v : Elem) : (s.setF i v).inputs = s.inputs := rfl
@[simp] theorem State.setF_rdata (s : State) (i : Reg) (v : Elem) : (s.setF i v).rdata = s.rdata := rfl
@[simp] theorem State.setF_draws (s : State) (i : Reg) (v : Elem) : (s.setF i v).draws = s.draws := rfl

/-! ### `setBuf` and `setEntry` -/

@[simp] theorem State.setBuf_f (s : State) (b : Buf) (m : Memory) : (s.setBuf b m).f = s.f := by cases b <;> rfl
@[simp] theorem State.setBuf_busy (s : State) (b : Buf) (m : Memory) : (s.setBuf b m).busy = s.busy := by cases b <;> rfl
@[simp] theorem State.setBuf_err (s : State) (b : Buf) (m : Memory) : (s.setBuf b m).err = s.err := by cases b <;> rfl
@[simp] theorem State.setBuf_errcode (s : State) (b : Buf) (m : Memory) : (s.setBuf b m).errcode = s.errcode := by cases b <;> rfl
@[simp] theorem State.setBuf_errop (s : State) (b : Buf) (m : Memory) : (s.setBuf b m).errop = s.errop := by cases b <;> rfl
@[simp] theorem State.setBuf_latch (s : State) (b : Buf) (m : Memory) : (s.setBuf b m).latch = s.latch := by cases b <;> rfl
@[simp] theorem State.setBuf_cmdcnt (s : State) (b : Buf) (m : Memory) : (s.setBuf b m).cmdcnt = s.cmdcnt := by cases b <;> rfl
@[simp] theorem State.setBuf_rst (s : State) (b : Buf) (m : Memory) : (s.setBuf b m).rst = s.rst := by cases b <;> rfl
@[simp] theorem State.setBuf_inputs (s : State) (b : Buf) (m : Memory) : (s.setBuf b m).inputs = s.inputs := by cases b <;> rfl
@[simp] theorem State.setBuf_rdata (s : State) (b : Buf) (m : Memory) : (s.setBuf b m).rdata = s.rdata := by cases b <;> rfl
@[simp] theorem State.setBuf_draws (s : State) (b : Buf) (m : Memory) : (s.setBuf b m).draws = s.draws := by cases b <;> rfl
@[simp] theorem State.setEntry_f (s : State) (b : Buf) (k : Nat) (v : Elem) : (s.setEntry b k v).f = s.f := by cases b <;> rfl
@[simp] theorem State.setEntry_busy (s : State) (b : Buf) (k : Nat) (v : Elem) : (s.setEntry b k v).busy = s.busy := by cases b <;> rfl
@[simp] theorem State.setEntry_err (s : State) (b : Buf) (k : Nat) (v : Elem) : (s.setEntry b k v).err = s.err := by cases b <;> rfl
@[simp] theorem State.setEntry_errcode (s : State) (b : Buf) (k : Nat) (v : Elem) : (s.setEntry b k v).errcode = s.errcode := by cases b <;> rfl
@[simp] theorem State.setEntry_errop (s : State) (b : Buf) (k : Nat) (v : Elem) : (s.setEntry b k v).errop = s.errop := by cases b <;> rfl
@[simp] theorem State.setEntry_latch (s : State) (b : Buf) (k : Nat) (v : Elem) : (s.setEntry b k v).latch = s.latch := by cases b <;> rfl
@[simp] theorem State.setEntry_cmdcnt (s : State) (b : Buf) (k : Nat) (v : Elem) : (s.setEntry b k v).cmdcnt = s.cmdcnt := by cases b <;> rfl
@[simp] theorem State.setEntry_rst (s : State) (b : Buf) (k : Nat) (v : Elem) : (s.setEntry b k v).rst = s.rst := by cases b <;> rfl
@[simp] theorem State.setEntry_inputs (s : State) (b : Buf) (k : Nat) (v : Elem) : (s.setEntry b k v).inputs = s.inputs := by cases b <;> rfl
@[simp] theorem State.setEntry_rdata (s : State) (b : Buf) (k : Nat) (v : Elem) : (s.setEntry b k v).rdata = s.rdata := by cases b <;> rfl
@[simp] theorem State.setEntry_draws (s : State) (b : Buf) (k : Nat) (v : Elem) : (s.setEntry b k v).draws = s.draws := by cases b <;> rfl

/-! ### `succeed` -/

@[simp] theorem State.succeed_f (s : State) : (s.succeed).f = s.f := rfl
@[simp] theorem State.succeed_busy (s : State) : (s.succeed).busy = false := rfl
@[simp] theorem State.succeed_err (s : State) : (s.succeed).err = s.err := rfl
@[simp] theorem State.succeed_errcode (s : State) : (s.succeed).errcode = s.errcode := rfl
@[simp] theorem State.succeed_errop (s : State) : (s.succeed).errop = s.errop := rfl
@[simp] theorem State.succeed_latch (s : State) : (s.succeed).latch = s.latch := rfl
@[simp] theorem State.succeed_cmdcnt (s : State) : (s.succeed).cmdcnt = s.cmdcnt + 1#32 := rfl
@[simp] theorem State.succeed_bufC (s : State) : (s.succeed).bufC = s.bufC := rfl
@[simp] theorem State.succeed_bufX (s : State) : (s.succeed).bufX = s.bufX := rfl
@[simp] theorem State.succeed_bufY (s : State) : (s.succeed).bufY = s.bufY := rfl
@[simp] theorem State.succeed_rst (s : State) : (s.succeed).rst = s.rst := rfl
@[simp] theorem State.succeed_inputs (s : State) : (s.succeed).inputs = s.inputs := rfl
@[simp] theorem State.succeed_rdata (s : State) : (s.succeed).rdata = s.rdata := rfl
@[simp] theorem State.succeed_draws (s : State) : (s.succeed).draws = s.draws := rfl

/-! ### `clearError` -/

@[simp] theorem State.clearError_f (s : State) : (s.clearError).f = s.f := rfl
@[simp] theorem State.clearError_busy (s : State) : (s.clearError).busy = s.busy := rfl
@[simp] theorem State.clearError_err (s : State) : (s.clearError).err = false := rfl
@[simp] theorem State.clearError_errcode (s : State) : (s.clearError).errcode = .none := rfl
@[simp] theorem State.clearError_errop (s : State) : (s.clearError).errop = 0#6 := rfl
@[simp] theorem State.clearError_latch (s : State) : (s.clearError).latch = s.latch := rfl
@[simp] theorem State.clearError_cmdcnt (s : State) : (s.clearError).cmdcnt = s.cmdcnt := rfl
@[simp] theorem State.clearError_bufC (s : State) : (s.clearError).bufC = s.bufC := rfl
@[simp] theorem State.clearError_bufX (s : State) : (s.clearError).bufX = s.bufX := rfl
@[simp] theorem State.clearError_bufY (s : State) : (s.clearError).bufY = s.bufY := rfl
@[simp] theorem State.clearError_rst (s : State) : (s.clearError).rst = s.rst := rfl
@[simp] theorem State.clearError_inputs (s : State) : (s.clearError).inputs = s.inputs := rfl
@[simp] theorem State.clearError_rdata (s : State) : (s.clearError).rdata = s.rdata := rfl
@[simp] theorem State.clearError_draws (s : State) : (s.clearError).draws = s.draws := rfl

/-! ### `recordError` and `fail` -/

@[simp] theorem State.recordError_f (s : State) (e : ErrCode) (op : Opcode) : (s.recordError e op).f = s.f := by unfold State.recordError; split <;> simp_all
@[simp] theorem State.recordError_busy (s : State) (e : ErrCode) (op : Opcode) : (s.recordError e op).busy = s.busy := by unfold State.recordError; split <;> simp_all
@[simp] theorem State.recordError_err (s : State) (e : ErrCode) (op : Opcode) : (s.recordError e op).err = true := by unfold State.recordError; split <;> simp_all
@[simp] theorem State.recordError_errcode (s : State) (e : ErrCode) (op : Opcode) : (s.recordError e op).errcode = if s.err then s.errcode else e := by unfold State.recordError; split <;> simp_all
@[simp] theorem State.recordError_errop (s : State) (e : ErrCode) (op : Opcode) : (s.recordError e op).errop = if s.err then s.errop else op := by unfold State.recordError; split <;> simp_all
@[simp] theorem State.recordError_latch (s : State) (e : ErrCode) (op : Opcode) : (s.recordError e op).latch = s.latch := by unfold State.recordError; split <;> simp_all
@[simp] theorem State.recordError_cmdcnt (s : State) (e : ErrCode) (op : Opcode) : (s.recordError e op).cmdcnt = s.cmdcnt := by unfold State.recordError; split <;> simp_all
@[simp] theorem State.recordError_bufC (s : State) (e : ErrCode) (op : Opcode) : (s.recordError e op).bufC = s.bufC := by unfold State.recordError; split <;> simp_all
@[simp] theorem State.recordError_bufX (s : State) (e : ErrCode) (op : Opcode) : (s.recordError e op).bufX = s.bufX := by unfold State.recordError; split <;> simp_all
@[simp] theorem State.recordError_bufY (s : State) (e : ErrCode) (op : Opcode) : (s.recordError e op).bufY = s.bufY := by unfold State.recordError; split <;> simp_all
@[simp] theorem State.recordError_rst (s : State) (e : ErrCode) (op : Opcode) : (s.recordError e op).rst = s.rst := by unfold State.recordError; split <;> simp_all
@[simp] theorem State.recordError_inputs (s : State) (e : ErrCode) (op : Opcode) : (s.recordError e op).inputs = s.inputs := by unfold State.recordError; split <;> simp_all
@[simp] theorem State.recordError_rdata (s : State) (e : ErrCode) (op : Opcode) : (s.recordError e op).rdata = s.rdata := by unfold State.recordError; split <;> simp_all
@[simp] theorem State.recordError_draws (s : State) (e : ErrCode) (op : Opcode) : (s.recordError e op).draws = s.draws := by unfold State.recordError; split <;> simp_all
@[simp] theorem State.fail_f (s : State) (e : ErrCode) (op : Opcode) : (s.fail e op).f = s.f := by simp [State.fail]
@[simp] theorem State.fail_busy (s : State) (e : ErrCode) (op : Opcode) : (s.fail e op).busy = false := by simp [State.fail]
@[simp] theorem State.fail_err (s : State) (e : ErrCode) (op : Opcode) : (s.fail e op).err = true := by simp [State.fail]
@[simp] theorem State.fail_errcode (s : State) (e : ErrCode) (op : Opcode) : (s.fail e op).errcode = if s.err then s.errcode else e := by simp [State.fail]
@[simp] theorem State.fail_errop (s : State) (e : ErrCode) (op : Opcode) : (s.fail e op).errop = if s.err then s.errop else op := by simp [State.fail]
@[simp] theorem State.fail_latch (s : State) (e : ErrCode) (op : Opcode) : (s.fail e op).latch = s.latch := by simp [State.fail]
@[simp] theorem State.fail_cmdcnt (s : State) (e : ErrCode) (op : Opcode) : (s.fail e op).cmdcnt = s.cmdcnt := by simp [State.fail]
@[simp] theorem State.fail_bufC (s : State) (e : ErrCode) (op : Opcode) : (s.fail e op).bufC = s.bufC := by simp [State.fail]
@[simp] theorem State.fail_bufX (s : State) (e : ErrCode) (op : Opcode) : (s.fail e op).bufX = s.bufX := by simp [State.fail]
@[simp] theorem State.fail_bufY (s : State) (e : ErrCode) (op : Opcode) : (s.fail e op).bufY = s.bufY := by simp [State.fail]
@[simp] theorem State.fail_rst (s : State) (e : ErrCode) (op : Opcode) : (s.fail e op).rst = s.rst := by simp [State.fail]
@[simp] theorem State.fail_inputs (s : State) (e : ErrCode) (op : Opcode) : (s.fail e op).inputs = s.inputs := by simp [State.fail]
@[simp] theorem State.fail_rdata (s : State) (e : ErrCode) (op : Opcode) : (s.fail e op).rdata = s.rdata := by simp [State.fail]
@[simp] theorem State.fail_draws (s : State) (e : ErrCode) (op : Opcode) : (s.fail e op).draws = s.draws := by simp [State.fail]

/-! ### `applyReset` -/

@[simp] theorem State.applyReset_f (s : State) (level : Bool) : (s.applyReset level).f = State.reset.f := rfl
@[simp] theorem State.applyReset_busy (s : State) (level : Bool) : (s.applyReset level).busy = State.reset.busy := rfl
@[simp] theorem State.applyReset_err (s : State) (level : Bool) : (s.applyReset level).err = State.reset.err := rfl
@[simp] theorem State.applyReset_errcode (s : State) (level : Bool) : (s.applyReset level).errcode = State.reset.errcode := rfl
@[simp] theorem State.applyReset_errop (s : State) (level : Bool) : (s.applyReset level).errop = State.reset.errop := rfl
@[simp] theorem State.applyReset_latch (s : State) (level : Bool) : (s.applyReset level).latch = State.reset.latch := rfl
@[simp] theorem State.applyReset_cmdcnt (s : State) (level : Bool) : (s.applyReset level).cmdcnt = State.reset.cmdcnt := rfl
@[simp] theorem State.applyReset_bufC (s : State) (level : Bool) : (s.applyReset level).bufC = State.reset.bufC := rfl
@[simp] theorem State.applyReset_bufX (s : State) (level : Bool) : (s.applyReset level).bufX = State.reset.bufX := rfl
@[simp] theorem State.applyReset_bufY (s : State) (level : Bool) : (s.applyReset level).bufY = State.reset.bufY := rfl
@[simp] theorem State.applyReset_rst (s : State) (level : Bool) : (s.applyReset level).rst = level := rfl
@[simp] theorem State.applyReset_inputs (s : State) (level : Bool) : (s.applyReset level).inputs = s.inputs := rfl
@[simp] theorem State.applyReset_rdata (s : State) (level : Bool) : (s.applyReset level).rdata = s.rdata := rfl
@[simp] theorem State.applyReset_draws (s : State) (level : Bool) : (s.applyReset level).draws = s.draws := rfl

/-! ### `answer` and `answerFree` -/

@[simp] theorem State.answer_f (s : State) (w : Word) : (s.answer w).f = s.f := rfl
@[simp] theorem State.answer_busy (s : State) (w : Word) : (s.answer w).busy = s.busy := rfl
@[simp] theorem State.answer_err (s : State) (w : Word) : (s.answer w).err = s.err := rfl
@[simp] theorem State.answer_errcode (s : State) (w : Word) : (s.answer w).errcode = s.errcode := rfl
@[simp] theorem State.answer_errop (s : State) (w : Word) : (s.answer w).errop = s.errop := rfl
@[simp] theorem State.answer_latch (s : State) (w : Word) : (s.answer w).latch = s.latch := rfl
@[simp] theorem State.answer_cmdcnt (s : State) (w : Word) : (s.answer w).cmdcnt = s.cmdcnt := rfl
@[simp] theorem State.answer_bufC (s : State) (w : Word) : (s.answer w).bufC = s.bufC := rfl
@[simp] theorem State.answer_bufX (s : State) (w : Word) : (s.answer w).bufX = s.bufX := rfl
@[simp] theorem State.answer_bufY (s : State) (w : Word) : (s.answer w).bufY = s.bufY := rfl
@[simp] theorem State.answer_rst (s : State) (w : Word) : (s.answer w).rst = s.rst := rfl
@[simp] theorem State.answer_inputs (s : State) (w : Word) : (s.answer w).inputs = s.inputs := rfl
@[simp] theorem State.answer_rdata (s : State) (w : Word) : (s.answer w).rdata = w := rfl
@[simp] theorem State.answer_draws (s : State) (w : Word) : (s.answer w).draws = s.draws := rfl
@[simp] theorem State.answerFree_f (s : State) : (s.answerFree).f = s.f := rfl
@[simp] theorem State.answerFree_busy (s : State) : (s.answerFree).busy = s.busy := rfl
@[simp] theorem State.answerFree_err (s : State) : (s.answerFree).err = s.err := rfl
@[simp] theorem State.answerFree_errcode (s : State) : (s.answerFree).errcode = s.errcode := rfl
@[simp] theorem State.answerFree_errop (s : State) : (s.answerFree).errop = s.errop := rfl
@[simp] theorem State.answerFree_latch (s : State) : (s.answerFree).latch = s.latch := rfl
@[simp] theorem State.answerFree_cmdcnt (s : State) : (s.answerFree).cmdcnt = s.cmdcnt := rfl
@[simp] theorem State.answerFree_bufC (s : State) : (s.answerFree).bufC = s.bufC := rfl
@[simp] theorem State.answerFree_bufX (s : State) : (s.answerFree).bufX = s.bufX := rfl
@[simp] theorem State.answerFree_bufY (s : State) : (s.answerFree).bufY = s.bufY := rfl
@[simp] theorem State.answerFree_rst (s : State) : (s.answerFree).rst = s.rst := rfl
@[simp] theorem State.answerFree_inputs (s : State) : (s.answerFree).inputs = s.inputs := rfl
@[simp] theorem State.answerFree_rdata (s : State) : (s.answerFree).rdata = Config.busyRead s.draws := rfl
@[simp] theorem State.answerFree_draws (s : State) : (s.answerFree).draws = s.draws + 1 := rfl

/-! ### The accessor `getF` -/

theorem State.getF_congr {s t : State} (h : t.f = s.f) (i : Reg) : t.getF i = s.getF i := by
  simp [State.getF, h]

@[simp] theorem State.getF_setF (s : State) (i j : Reg) (v : Elem) :
    (s.setF i v).getF j = if j = i then v else s.getF j := by
  simp [State.setF, State.getF, Vector.getElem_set, Fin.ext_iff, eq_comm]

@[simp] theorem State.getF_setEntry (s : State) (b : Buf) (k : Nat) (v : Elem) (i : Reg) :
    (s.setEntry b k v).getF i = s.getF i := State.getF_congr (by simp) i

@[simp] theorem State.getF_succeed (s : State) (i : Reg) : s.succeed.getF i = s.getF i := rfl

@[simp] theorem State.getF_clearError (s : State) (i : Reg) : s.clearError.getF i = s.getF i := rfl

@[simp] theorem State.getF_recordError (s : State) (e : ErrCode) (op : Opcode) (i : Reg) :
    (s.recordError e op).getF i = s.getF i := State.getF_congr (by simp) i

@[simp] theorem State.getF_fail (s : State) (e : ErrCode) (op : Opcode) (i : Reg) :
    (s.fail e op).getF i = s.getF i := State.getF_congr (by simp) i

@[simp] theorem State.getF_reset (i : Reg) : State.reset.getF i = 0#9 := by
  simp [State.getF, State.reset]

@[simp] theorem State.getF_applyReset (s : State) (level : Bool) (i : Reg) : (s.applyReset level).getF i = 0#9 := by
  exact State.getF_reset i

theorem State.num_lt (s : State) (i : Reg) : s.num i < 512 := (s.getF i).isLt

@[simp] theorem State.num_succeed (s : State) (i : Reg) : s.succeed.num i = s.num i := rfl

@[simp] theorem State.num_setF (s : State) (i j : Reg) (v : Elem) :
    (s.setF i v).num j = if j = i then v.toNat else s.num j := by
  unfold State.num; rw [State.getF_setF]; split <;> rfl

/-! ### The accessor `entry` -/

theorem State.entry_congr {s t : State} (hc : t.bufC = s.bufC) (hx : t.bufX = s.bufX) (hy : t.bufY = s.bufY)
    (b : Buf) (k : Nat) : t.entry b k = s.entry b k := by
  cases b <;> simp [State.entry, State.buf, hc, hx, hy]

@[simp] theorem State.entry_setF (s : State) (i : Reg) (v : Elem) (b : Buf) (k : Nat) :
    (s.setF i v).entry b k = s.entry b k := State.entry_congr rfl rfl rfl b k

@[simp] theorem State.entry_succeed (s : State) (b : Buf) (k : Nat) : s.succeed.entry b k = s.entry b k :=
  State.entry_congr rfl rfl rfl b k

@[simp] theorem State.entry_clearError (s : State) (b : Buf) (k : Nat) : s.clearError.entry b k = s.entry b k :=
  State.entry_congr rfl rfl rfl b k

@[simp] theorem State.entry_recordError (s : State) (e : ErrCode) (op : Opcode) (b : Buf) (k : Nat) :
    (s.recordError e op).entry b k = s.entry b k := State.entry_congr (by simp) (by simp) (by simp) b k

@[simp] theorem State.entry_fail (s : State) (e : ErrCode) (op : Opcode) (b : Buf) (k : Nat) :
    (s.fail e op).entry b k = s.entry b k := State.entry_congr (by simp) (by simp) (by simp) b k

@[simp] theorem State.entry_reset (b : Buf) (k : Nat) : State.reset.entry b k = none := by
  cases b <;> rfl

@[simp] theorem State.entry_applyReset (s : State) (level : Bool) (b : Buf) (k : Nat) :
    (s.applyReset level).entry b k = none := by
  cases b <;> rfl

@[simp] theorem State.buf_setBuf_self (s : State) (b : Buf) (m : Memory) : (s.setBuf b m).buf b = m := by
  cases b <;> rfl

theorem State.buf_setBuf_of_ne (s : State) {b b' : Buf} (h : b' ≠ b) (m : Memory) :
    (s.setBuf b m).buf b' = s.buf b' := by
  cases b <;> cases b' <;> first | rfl | exact absurd rfl h

end Sys2Proof.Machine
end

