-- ==== Sys2Proof/Laws/Memory.lean ====
section
/-! SUPPORT. The buffers: a read after a write, a run of writes, and that every operation keeps the canonical form. -/

namespace Sys2Proof.Machine

theorem Memory.read_write (k j : Nat) (v : Elem) (m : Memory) :
    Memory.read j (Memory.write k v m) = if j = k then some v else Memory.read j m := by
  induction m with
  | nil => simp [Memory.write, Memory.read, eq_comm]
  | cons p m ih =>
    obtain ⟨a, u⟩ := p
    simp only [Memory.write]
    split
    · simp only [Memory.read, eq_comm (a := k)]
    · split
      · subst k; by_cases hj : j = a <;> simp [Memory.read, hj, eq_comm]
      · by_cases hj : a = j
        · simp only [Memory.read, hj, if_true]; rw [if_neg (by omega)]
        · simp only [Memory.read, hj, if_false, ih]

theorem Memory.wfFrom_write (lo k : Nat) (v : Elem) (m : Memory) (hlo : lo ≤ k) (hk : k < 256)
    (h : Memory.wfFrom lo m = true) : Memory.wfFrom lo (Memory.write k v m) = true := by
  induction m generalizing lo with
  | nil => simp [Memory.write, Memory.wfFrom, Config.NB, hlo, hk]
  | cons p m ih =>
    obtain ⟨a, u⟩ := p
    simp only [Memory.wfFrom, Bool.and_eq_true, decide_eq_true_eq] at h
    obtain ⟨⟨h1, h2⟩, h3⟩ := h
    simp only [Memory.write]
    split
    · simp_all [Memory.wfFrom, Config.NB]
    · split
      · subst k; simp_all [Memory.wfFrom]
      · simp only [Memory.wfFrom, Bool.and_eq_true, decide_eq_true_eq]
        exact ⟨⟨h1, h2⟩, ih _ (by omega) h3⟩

/-- Writing an existing entry keeps the canonical form. -/
theorem Memory.wf_write (k : Nat) (v : Elem) (m : Memory) (hk : k < 256) (h : Memory.wf m = true) :
    Memory.wf (Memory.write k v m) = true := Memory.wfFrom_write 0 k v m (Nat.zero_le k) hk h

/-- Writing a run that ends inside the buffer keeps the canonical form. -/
theorem Memory.wf_writeFrom (k : Nat) (vs : List Elem) (m : Memory) (hk : k + vs.length ≤ 256)
    (h : Memory.wf m = true) : Memory.wf (Memory.writeFrom k vs m) = true := by
  induction vs generalizing k m with
  | nil => exact h
  | cons v vs ih =>
    simp only [List.length_cons] at hk
    exact ih (k + 1) _ (by omega) (Memory.wf_write k v m (by omega) h)

/-- A run of writes, read back: the written values inside the run, the old entries outside it. -/
theorem Memory.read_writeFrom (k j : Nat) (vs : List Elem) (m : Memory) :
    Memory.read j (Memory.writeFrom k vs m) =
      if k ≤ j ∧ j < k + vs.length then vs[j - k]? else Memory.read j m := by
  induction vs generalizing k m with
  | nil => simp only [Memory.writeFrom, List.length_nil]; rw [if_neg (by omega)]
  | cons v vs ih =>
    simp only [Memory.writeFrom, ih, Memory.read_write, List.length_cons]
    by_cases h1 : j = k
    · subst j; rw [if_neg (by omega), if_pos rfl, if_pos (by omega)]; simp
    · rw [if_neg h1]
      by_cases h2 : k + 1 ≤ j ∧ j < k + 1 + vs.length
      · rw [if_pos h2, if_pos (by omega), show j - k = (j - (k + 1)) + 1 by omega]; simp
      · rw [if_neg h2, if_neg (by omega)]

/-- An entry beyond the buffer is never listed in the canonical form. -/
theorem Memory.read_of_wfFrom (lo k : Nat) (m : Memory) (h : Memory.wfFrom lo m = true) (hk : k < lo ∨ 256 ≤ k) :
    Memory.read k m = none := by
  induction m generalizing lo with
  | nil => rfl
  | cons p m ih =>
    obtain ⟨a, u⟩ := p
    simp only [Memory.wfFrom, Bool.and_eq_true, decide_eq_true_eq] at h
    obtain ⟨⟨h1, h2⟩, h3⟩ := h
    change a < 256 at h2
    simp only [Memory.read]
    rw [if_neg (show ¬ a = k by omega)]
    exact ih (a + 1) h3 (by omega)

/-- Every listed entry's value is read at its index. -/
theorem Memory.mem_of_read (k : Nat) (v : Elem) (m : Memory) (h : Memory.read k m = some v) : (k, v) ∈ m := by
  induction m with
  | nil => simp [Memory.read] at h
  | cons p m ih =>
    obtain ⟨a, u⟩ := p
    simp only [Memory.read] at h
    split at h
    · simp_all
    · exact List.mem_cons_of_mem _ (ih h)

/-- The memory of the reset state is in canonical form. -/
theorem State.reset_buf_wf (b : Buf) : Memory.wf (State.reset.buf b) = true := by cases b <;> rfl

theorem State.entry_setEntry (s : State) (b b' : Buf) (k k' : Nat) (v : Elem) :
    (s.setEntry b k v).entry b' k' = if b' = b ∧ k' = k then some v else s.entry b' k' := by
  by_cases h : b' = b
  · subst h; simp [State.entry, State.setEntry, Memory.read_write]
  · simp [State.entry, State.setEntry, State.buf_setBuf_of_ne s h, h]

/-- Storing to an entry keeps the canonical form of every buffer. -/
theorem State.setEntry_buf_wf (s : State) (b b' : Buf) (k : Nat) (v : Elem) (hk : k < 256)
    (h : ∀ d, Memory.wf (s.buf d) = true) : Memory.wf ((s.setEntry b k v).buf b') = true := by
  by_cases hb : b' = b
  · subst hb; simp only [State.setEntry, State.buf_setBuf_self]; exact Memory.wf_write k v _ hk (h b')
  · simp only [State.setEntry, State.buf_setBuf_of_ne s hb]; exact h b'

end Sys2Proof.Machine
end

