-- ==== Sys2Proof/Laws/Ops.lean ====
section
/-! SUPPORT. For each shared operation, once, everything it can do: the ends of a command, reading operands, the bus, the
completion, and one step. -/

namespace Sys2Proof.Machine

open Sys2Proof

/-! ### The ends of a command -/

/-- A command that ends with one result wrote that register and nothing else. -/
theorem wroteOnlyF_finish (s : State) (rd : Reg) (v : Elem) : WroteOnlyF rd s (s.setF rd v).succeed := by
  refine ⟨fun i hi => ?_, fun b k => ?_, ⟨rfl, rfl, rfl⟩, ⟨rfl, rfl, rfl, rfl, rfl⟩, ⟨rfl, rfl⟩⟩
  · simp [hi]
  · simp

/-- `finish` answers a next state with the result in its register and nothing else changed. -/
theorem finish_next (s : State) (rd : Reg) (v : Elem) :
    ∃ t, s.finish rd v = .next t ∧ t.getF rd = v ∧ WroteOnlyF rd s t :=
  ⟨_, rfl, by simp, wroteOnlyF_finish s rd v⟩

/-- `raise` answers a next state with the error recorded, unless a record is held, and nothing else changed. -/
theorem raise_next (s : State) (e : ErrCode) (op : Opcode) : ∃ t, s.raise e op = .next t ∧ FailedWith e op s t := by
  refine ⟨_, rfl, fun i => by simp, fun b k => by simp, ⟨?_, ?_, ?_, ?_, ?_⟩, ?_, ?_, fun h => ⟨?_, ?_, ?_⟩,
    fun h => ⟨?_, ?_, ?_⟩⟩
  all_goals simp_all

/-! ### Reading operands -/

/-- One entry as an operand: its value, or the fault that names it. -/
theorem readEntry_cases (s : State) (b : Buf) (k : Nat) :
    (∃ v, s.entry b k = some v ∧ s.readEntry b k = .ok v) ∨
      (s.entry b k = none ∧ s.readEntry b k = .error (.unwrittenEntry b k)) := by
  unfold State.readEntry
  cases h : s.entry b k with
  | none => exact .inr ⟨rfl, rfl⟩
  | some v => exact .inl ⟨v, rfl, rfl⟩

/-- A run of written entries is read as the list of their values. -/
theorem readRun_ok (s : State) (b : Buf) (k n : Nat) (h : ∀ j < n, s.entry b (k + j) ≠ none) :
    s.readRun b k n = .ok ((List.range n).map fun j => entryNum s b (k + j)) := by
  induction n generalizing k with
  | zero => rfl
  | succ n ih =>
    have h0 := h 0 (by omega)
    rw [Nat.add_zero] at h0
    rcases readEntry_cases s b k with ⟨v, hv, hr⟩ | ⟨hn, _⟩
    · have ih' := ih (k + 1) fun j hj => by rw [show k + 1 + j = k + (j + 1) by omega]; exact h (j + 1) (by omega)
      unfold State.readRun
      rw [hr, ih']
      simp only [List.range_succ_eq_map, List.map_cons, List.map_map, Except.ok.injEq]
      congr 1
      · simp [entryNum, hv]
      · refine List.map_congr_left fun j _ => ?_
        simp only [Function.comp, Nat.succ_eq_add_one]
        rw [show k + 1 + j = k + (j + 1) by omega]
    · exact absurd hn h0

/-- A run with an unwritten entry faults, naming such an entry. -/
theorem readRun_fault (s : State) (b : Buf) (k n : Nat) (h : ¬ ∀ j < n, s.entry b (k + j) ≠ none) :
    ∃ j < n, s.entry b (k + j) = none ∧ s.readRun b k n = .error (.unwrittenEntry b (k + j)) := by
  induction n generalizing k with
  | zero => exact absurd (fun j hj => absurd hj (Nat.not_lt_zero j)) h
  | succ n ih =>
    rcases readEntry_cases s b k with ⟨v, hv, hr⟩ | ⟨hn, hr⟩
    · have hn : ¬ ∀ j < n, s.entry b (k + 1 + j) ≠ none := by
        intro hall
        refine h fun j hj => ?_
        match j with
        | 0 => simp [hv]
        | j + 1 => rw [show k + (j + 1) = k + 1 + j by omega]; exact hall j (by omega)
      obtain ⟨j, hj, he, hrun⟩ := ih (k + 1) hn
      refine ⟨j + 1, by omega, by rw [show k + (j + 1) = k + 1 + j by omega]; exact he, ?_⟩
      unfold State.readRun
      rw [hr, hrun, show k + (j + 1) = k + 1 + j by omega]
    · refine ⟨0, by omega, hn, ?_⟩
      unfold State.readRun
      rw [hr]
      rfl

/-- Loading one entry into a register. -/
theorem loadEntry_cases (s : State) (rd : Reg) (b : Buf) (k : Nat) :
    (∃ v, s.entry b k = some v ∧ s.loadEntry rd b k = s.finish rd v) ∨
      (s.entry b k = none ∧ s.loadEntry rd b k = .fault (.unwrittenEntry b k)) := by
  unfold State.loadEntry
  rcases readEntry_cases s b k with ⟨v, hv, hr⟩ | ⟨hn, hr⟩
  · exact .inl ⟨v, hv, by rw [hr]⟩
  · exact .inr ⟨hn, by rw [hr]⟩

/-! ### The window on the bus -/

theorem busOffset_base (off : Nat) (h : off < 4096) : busOffset (Config.base + off) = some off := by
  unfold busOffset
  rw [if_pos ⟨Nat.le_add_right _ _, by simp only [Config.windowBytes]; omega⟩, Nat.add_sub_cancel_left]

theorem busOffset_outside (addr : Nat) (h : addr < Config.base ∨ Config.base + 4096 ≤ addr) : busOffset addr = none := by
  unfold busOffset
  rw [if_neg]
  simp only [Config.windowBytes]
  omega

/-- Every offset a transaction reaches lies in the window. -/
theorem busOffset_lt {addr off : Nat} (h : busOffset addr = some off) : off < 4096 := by
  unfold busOffset at h
  split at h
  · simp only [Config.windowBytes, Option.some.injEq] at *; omega
  · cases h

/-- A well-formed transaction with reset released is not refused. -/
theorem busRefusal_none (s : State) (off : Nat) (hr : s.rst = false) (ha : off % 4 = 0) :
    s.busRefusal off .word 0xF#4 = none := by
  simp [State.busRefusal, hr, ha]

/-- Everything a CMD write can do (R140, R141). -/
theorem offer_cases (s : State) (w : Word) :
    (s.busy = true ∧ s.offer w = s.recordError .busyViolation (opcodeOf s.latch)) ∨
      (s.busy = false ∧ s.err = true ∧ w ≠ clrerrWord ∧ s.offer w = s) ∨
      (s.busy = false ∧ (s.err = false ∨ w = clrerrWord) ∧ s.offer w = { s with latch := w, busy := true }) := by
  unfold State.offer
  cases hb : s.busy with
  | true => exact .inl ⟨rfl, rfl⟩
  | false =>
    by_cases h : s.err = true ∧ w ≠ clrerrWord
    · exact .inr (.inl ⟨rfl, h.1, h.2, by simp [h]⟩)
    · refine .inr (.inr ⟨rfl, ?_, by simp [h]⟩)
      by_cases he : s.err = true
      · exact .inr (not_not.mp fun hw => h ⟨he, hw⟩)
      · exact .inl (by simpa using he)

/-! ### One step -/

/-- A step takes the next input, or with none left is a core turn. -/
theorem step_cons {s : State} {e : Event} {rest : List Event} (h : s.inputs = e :: rest) :
    step s = State.act { s with inputs := rest } e := by
  unfold step State.advance
  rw [h]

theorem step_nil {s : State} (h : s.inputs = []) : step s = s.coreMove := by
  unfold step State.advance
  rw [h]

/-- A step over a host write of the defined form, reset released. -/
theorem step_hostWr {s : State} {off : Nat} {w : Word} {rest : List Event} (h : s.inputs = hostWr off w :: rest)
    (hr : s.rst = false) (ho : off < 4096) (ha : off % 4 = 0) :
    step s = .next (State.busWrite { s with inputs := rest } off w) := by
  rw [step_cons h]
  simp only [State.act, hostWr, State.hostWrite, busOffset_base off ho]
  rw [busRefusal_none { s with inputs := rest } off hr ha]

/-- A step over a host read of the defined form, reset released. -/
theorem step_hostRd {s : State} {off : Nat} {rest : List Event} (h : s.inputs = hostRd off :: rest)
    (hr : s.rst = false) (ho : off < 4096) (ha : off % 4 = 0) :
    step s = State.busRead { s with inputs := rest } off := by
  rw [step_cons h]
  simp only [State.act, hostRd, State.hostRead, busOffset_base off ho]
  rw [busRefusal_none { s with inputs := rest } off hr ha]

/-- When the completion comes next, the step is the completion of the word in flight. -/
theorem step_completion {s : State} (h : CompletionNext s) : step s = (afterInput s).complete := by
  obtain ⟨hr, hb, hi⟩ := h
  have key : ∀ u : State, u.rst = false → u.busy = true → u.coreMove = u.complete := by
    intro u h1 h2; simp [State.coreMove, h1, h2]
  cases hin : s.inputs with
  | nil =>
    rw [step_nil hin, key s hr hb]
    have : afterInput s = s := by unfold afterInput; rw [hin, List.tail_nil, ← hin]
    rw [this]
  | cons e rest =>
    have he : e = .coreTurn := by simpa [hin] using hi
    subst he
    rw [step_cons hin]
    have : afterInput s = { s with inputs := rest } := by simp [afterInput, hin]
    rw [this]
    exact key _ hr hb

end Sys2Proof.Machine
end

