-- ==== Sys2Proof/Laws/PerInstr.lean ====
section
/-! SUPPORT. One statement per command, about its encoding: the word has the command's opcode, and no bit outside the row's
fields (R64, R65). -/

namespace Sys2Proof.Laws

/-- The mask of each command's row (R65). -/
def maskOf : Instr → Word
  | .nop => 0xFFFFFFFF#32
  | .ldi _ _ => 0xFC7FFE00#32
  | .mov _ _ => 0xFC0FFFFF#32
  | .madd _ _ _ => 0xFC01FFFF#32
  | .msub _ _ _ => 0xFC01FFFF#32
  | .mmul _ _ _ => 0xFC01FFFF#32
  | .minv _ _ => 0xFC0FFFFF#32
  | .mpow _ _ _ => 0xFC01FFFF#32
  | .mpowi _ _ _ => 0xFC0F0000#32
  | .peval _ _ _ => 0xFC0FFF00#32
  | .split _ _ => 0xFFFF0000#32
  | .lagr0 _ _ _ => 0xFC7F0000#32
  | .cst _ _ => 0xFF8FFF00#32
  | .cld _ _ => 0xFC7FFF00#32
  | .pst _ _ _ => 0xFF81FF00#32
  | .pldx _ _ => 0xFC7FFF00#32
  | .pldy _ _ => 0xFC7FFF00#32
  | .clrerr => 0xFFFFFFFF#32

theorem and_packed (a a' : BitVec 6) (b b' c c' d d' : BitVec 3) (e e' : BitVec 1) (f f' : BitVec 16) :
    (a ++ b ++ c ++ d ++ e ++ f) &&& (a' ++ b' ++ c' ++ d' ++ e' ++ f') =
      (a &&& a') ++ (b &&& b') ++ (c &&& c') ++ (d &&& d') ++ (e &&& e') ++ (f &&& f') := by
  simp only [BitVec.and_append]

theorem zeros_append (a : BitVec 6) : (a ++ 0#3 ++ 0#3 ++ 0#3 ++ 0#1 ++ 0#16 : Word) = (a ++ 0#26 : Word) := by
  apply BitVec.eq_of_toNat_eq
  show (a ++ 0#3 ++ 0#3 ++ 0#3 ++ 0#1 ++ 0#16).toNat = (a ++ 0#26).toNat
  simp only [BitVec.toNat_append, BitVec.toNat_ofNat, Nat.zero_mod, Nat.or_zero, ← Nat.shiftLeft_add]

/-- Under its row's mask, a packed word with the named fields 0 is its opcode alone. -/
theorem packWord_and (op : Opcode) (rd rs1 rs2 : Reg) (low : BitVec 16) (mrd mrs1 mrs2 : BitVec 3) (mlow : BitVec 16)
    (hrd : (BitVec.ofFin rd : BitVec 3) &&& mrd = 0#3) (hrs1 : (BitVec.ofFin rs1 : BitVec 3) &&& mrs1 = 0#3)
    (hrs2 : (BitVec.ofFin rs2 : BitVec 3) &&& mrs2 = 0#3) (hlow : low &&& mlow = 0#16) (mask : Word)
    (hm : mask = 0x3F#6 ++ mrd ++ mrs1 ++ mrs2 ++ 1#1 ++ mlow) :
    packWord op rd rs1 rs2 low &&& mask = op ++ 0#26 := by
  subst hm
  refine (and_packed op 0x3F#6 _ mrd _ mrs1 _ mrs2 0#1 1#1 low mlow).trans ?_
  have h1 : op &&& 0x3F#6 = op := BitVec.and_allOnes
  rw [hrd, hrs1, hrs2, hlow, h1]
  exact zeros_append op

theorem and_zero_of_lt {w : Nat} (x m : BitVec w) (k : Nat) (hx : x.toNat < 2 ^ k) (hm : ∀ i < k, m.getLsbD i = false) :
    x &&& m = 0#w := by
  apply BitVec.eq_of_getLsbD_eq
  intro i hi
  simp only [BitVec.getLsbD_and, BitVec.getLsbD_zero]
  by_cases h : i < k
  · rw [hm i h, Bool.and_false]
  · rw [BitVec.getLsbD, Nat.testBit_lt_two_pow (lt_of_lt_of_le hx (Nat.pow_le_pow_right (by decide) (by omega))),
      Bool.false_and]

theorem packBytes_toNat (a b : Nat) (ha : a ≤ 255) (hb : b ≤ 255) : (packBytes a b).toNat = 256 * a + b := by
  unfold packBytes
  rw [BitVec.toNat_append, BitVec.toNat_ofNat, BitVec.toNat_ofNat, Nat.mod_eq_of_lt (show a < 2 ^ 8 by omega),
    Nat.mod_eq_of_lt (show b < 2 ^ 8 by omega), ← Nat.shiftLeft_add_eq_or_of_lt (show b < 2 ^ 8 by omega),
    Nat.shiftLeft_eq]
  omega

/-- An encoded command's word, under its row's mask, is its opcode and nothing else. -/
def EncodesRow.Statement (i : Instr) : Prop := i.wellFormed = true → encode i &&& maskOf i = i.opcode ++ 0#26

theorem EncodesRow.nop : EncodesRow.Statement .nop := fun _ => by decide

theorem EncodesRow.ldi (rd : Reg) (imm : Nat) : EncodesRow.Statement (.ldi rd imm) := fun h => by
  have h' : imm ≤ 511 := by simpa [Instr.wellFormed] using h
  refine packWord_and _ rd 0 0 _ 0#3 7#3 7#3 0xFE00#16 BitVec.and_zero (by decide) (by decide) ?_ _ rfl
  exact and_zero_of_lt _ _ 9 (by rw [BitVec.toNat_ofNat, Nat.mod_eq_of_lt (by omega)]; omega) (by decide)

theorem EncodesRow.mov (rd rs1 : Reg) : EncodesRow.Statement (.mov rd rs1) := fun _ =>
  packWord_and _ rd rs1 0 _ 0#3 0#3 7#3 0xFFFF#16 BitVec.and_zero BitVec.and_zero (by decide) (by decide) _ rfl

theorem EncodesRow.madd (rd rs1 rs2 : Reg) : EncodesRow.Statement (.madd rd rs1 rs2) := fun _ =>
  packWord_and _ rd rs1 rs2 _ 0#3 0#3 0#3 0xFFFF#16 BitVec.and_zero BitVec.and_zero BitVec.and_zero (by decide) _ rfl

theorem EncodesRow.msub (rd rs1 rs2 : Reg) : EncodesRow.Statement (.msub rd rs1 rs2) := fun _ =>
  packWord_and _ rd rs1 rs2 _ 0#3 0#3 0#3 0xFFFF#16 BitVec.and_zero BitVec.and_zero BitVec.and_zero (by decide) _ rfl

theorem EncodesRow.mmul (rd rs1 rs2 : Reg) : EncodesRow.Statement (.mmul rd rs1 rs2) := fun _ =>
  packWord_and _ rd rs1 rs2 _ 0#3 0#3 0#3 0xFFFF#16 BitVec.and_zero BitVec.and_zero BitVec.and_zero (by decide) _ rfl

theorem EncodesRow.minv (rd rs1 : Reg) : EncodesRow.Statement (.minv rd rs1) := fun _ =>
  packWord_and _ rd rs1 0 _ 0#3 0#3 7#3 0xFFFF#16 BitVec.and_zero BitVec.and_zero (by decide) (by decide) _ rfl

theorem EncodesRow.mpow (rd rs1 rs2 : Reg) : EncodesRow.Statement (.mpow rd rs1 rs2) := fun _ =>
  packWord_and _ rd rs1 rs2 _ 0#3 0#3 0#3 0xFFFF#16 BitVec.and_zero BitVec.and_zero BitVec.and_zero (by decide) _ rfl

theorem EncodesRow.mpowi (rd rs1 : Reg) (e : Nat) : EncodesRow.Statement (.mpowi rd rs1 e) := fun _ =>
  packWord_and _ rd rs1 0 _ 0#3 0#3 7#3 0#16 BitVec.and_zero BitVec.and_zero (by decide) BitVec.and_zero _ rfl

theorem EncodesRow.peval (rd rs1 : Reg) (t : Nat) : EncodesRow.Statement (.peval rd rs1 t) := fun h => by
  have h' : t ≤ 255 := by simpa [Instr.wellFormed] using h
  refine packWord_and _ rd rs1 0 _ 0#3 0#3 7#3 0xFF00#16 BitVec.and_zero BitVec.and_zero (by decide) ?_ _ rfl
  exact and_zero_of_lt _ _ 8 (by rw [packBytes_toNat 0 t (by decide) h']; omega) (by decide)

theorem EncodesRow.split (n t : Nat) : EncodesRow.Statement (.split n t) := fun _ =>
  packWord_and _ 0 0 0 _ 7#3 7#3 7#3 0#16 (by decide) (by decide) (by decide) BitVec.and_zero _ rfl

theorem EncodesRow.lagr0 (rd : Reg) (base count : Nat) : EncodesRow.Statement (.lagr0 rd base count) := fun _ =>
  packWord_and _ rd 0 0 _ 0#3 7#3 7#3 0#16 BitVec.and_zero (by decide) (by decide) BitVec.and_zero _ rfl

theorem packIndex_and (idx : Idx) : packBytes 0 idx &&& 0xFF00#16 = 0#16 :=
  and_zero_of_lt _ _ 8 (by rw [packBytes_toNat 0 idx (by decide) (by omega)]; omega) (by decide)

theorem EncodesRow.cst (idx : Idx) (rs1 : Reg) : EncodesRow.Statement (.cst idx rs1) := fun _ =>
  packWord_and _ 0 rs1 0 _ 7#3 0#3 7#3 0xFF00#16 (by decide) BitVec.and_zero (by decide) (packIndex_and idx) _ rfl

theorem EncodesRow.cld (rd : Reg) (idx : Idx) : EncodesRow.Statement (.cld rd idx) := fun _ =>
  packWord_and _ rd 0 0 _ 0#3 7#3 7#3 0xFF00#16 BitVec.and_zero (by decide) (by decide) (packIndex_and idx) _ rfl

theorem EncodesRow.pst (idx : Idx) (rs1 rs2 : Reg) : EncodesRow.Statement (.pst idx rs1 rs2) := fun _ =>
  packWord_and _ 0 rs1 rs2 _ 7#3 0#3 0#3 0xFF00#16 (by decide) BitVec.and_zero BitVec.and_zero (packIndex_and idx) _ rfl

theorem EncodesRow.pldx (rd : Reg) (idx : Idx) : EncodesRow.Statement (.pldx rd idx) := fun _ =>
  packWord_and _ rd 0 0 _ 0#3 7#3 7#3 0xFF00#16 BitVec.and_zero (by decide) (by decide) (packIndex_and idx) _ rfl

theorem EncodesRow.pldy (rd : Reg) (idx : Idx) : EncodesRow.Statement (.pldy rd idx) := fun _ =>
  packWord_and _ rd 0 0 _ 0#3 7#3 7#3 0xFF00#16 BitVec.and_zero (by decide) (by decide) (packIndex_and idx) _ rfl

theorem EncodesRow.clrerr : EncodesRow.Statement .clrerr := fun _ => by decide

end Sys2Proof.Laws
end

