-- ==== Sys2Proof/Tests/Slice0.lean ====
section
/-! SUPPORT. The model's own tests: words and results from 95_test_vectors.md, one step each, and for every statement
with hypotheses a witness that meets them. -/

namespace Sys2Proof.Tests

open Sys2Proof Sys2Proof.Machine

/-! ### What the tests build and read -/

/-- The reset state with these values in F0, F1 and F2 and these entries from C[0], X[0] and Y[0] upward. -/
def start (f : List Nat) (c x y : List Nat) : State :=
  { State.reset with
    f := Vector.ofFn fun i => toElem (f.getD i 0)
    bufC := Memory.writeFrom 0 (c.map toElem) []
    bufX := Memory.writeFrom 0 (x.map toElem) []
    bufY := Memory.writeFrom 0 (y.map toElem) [] }

/-- The step that completes the word `w` on `s`. -/
def run (w : Nat) (s : State) : Result := step (s.withFetchWord 32 w)

/-- `F[i]` and STATUS after a step. -/
def after (r : Result) (i : Reg) : Option (Nat × Word) :=
  match r with
  | .next t => some (t.num i, t.statusWord)
  | .fault _ => none
  | .refused _ => none

/-- One entry after a step, and CMDCNT. -/
def entryAfter (r : Result) (b : Buf) (k : Nat) : Option (Option Elem × Word) :=
  match r with
  | .next t => some (t.entry b k, t.cmdcnt)
  | .fault _ => none
  | .refused _ => none

/-- The fault a step stops with. -/
def faultOf (r : Result) : Option Fault :=
  match r with
  | .next _ => none
  | .fault e => some e
  | .refused _ => none

/-! ### WellFormed: a command at the edge of each check, and one past it (R69) -/

theorem test_wf_ldi : (Instr.ldi 1 511).wellFormed = true ∧ (Instr.ldi 1 512).wellFormed = false := by decide
theorem test_wf_mpowi : (Instr.mpowi 1 2 65535).wellFormed = true ∧ (Instr.mpowi 1 2 65536).wellFormed = false := by decide
theorem test_wf_peval : (Instr.peval 1 2 255).wellFormed = true ∧ (Instr.peval 1 2 256).wellFormed = false := by decide
theorem test_wf_split_n : (Instr.split 255 0).wellFormed = true ∧ (Instr.split 256 0).wellFormed = false := by decide
theorem test_wf_split_t : (Instr.split 0 255).wellFormed = true ∧ (Instr.split 0 256).wellFormed = false := by decide
theorem test_wf_lagr0_base : (Instr.lagr0 0 255 1).wellFormed = true ∧ (Instr.lagr0 0 256 1).wellFormed = false := by decide
theorem test_wf_lagr0_count : (Instr.lagr0 0 1 255).wellFormed = true ∧ (Instr.lagr0 0 1 256).wellFormed = false := by decide
theorem test_assemble_refuses : assemble (.ldi 1 512) = none ∧ assemble (.ldi 3 511) = some 0x058001FF#32 := by decide

/-! ### Decoding: the words of 95_test_vectors.md section 3, and every row's word written out bit by bit (R64, R65) -/

theorem test_decode_nop : decode 0b00000000000000000000000000000000#32 = .command .nop := by decide
theorem test_decode_ldi : decode 0b00000101100000000000000111111111#32 = .command (.ldi 3 511) := by decide
theorem test_decode_mov : decode 0b00001010101000000000000000000000#32 = .command (.mov 5 2) := by decide
theorem test_decode_madd : decode 0b00001111111011000000000000000000#32 = .command (.madd 7 6 6) := by decide
theorem test_decode_msub : decode 0b00010011000001100000000000000000#32 = .command (.msub 6 0 3) := by decide
theorem test_decode_mmul : decode 0b00010101100101000000000000000000#32 = .command (.mmul 3 1 2) := by decide
theorem test_decode_minv : decode 0b00011001000100000000000000000000#32 = .command (.minv 2 1) := by decide
theorem test_decode_mpow : decode 0b00011110100110000000000000000000#32 = .command (.mpow 5 1 4) := by decide
theorem test_decode_mpowi : decode 0b00100010000100000000000010000000#32 = .command (.mpowi 4 1 128) := by decide
theorem test_decode_peval : decode 0b01000001000100000000000000000011#32 = .command (.peval 2 1 3) := by decide
theorem test_decode_split : decode 0b01000100000000000000101000000011#32 = .command (.split 10 3) := by decide
theorem test_decode_lagr0 : decode 0b01001000000000000001000000000011#32 = .command (.lagr0 0 16 3) := by decide
theorem test_decode_cst : decode 0b01100000000100000000000000000000#32 = .command (.cst 0 1) := by decide
theorem test_decode_cld : decode 0b01100110000000000000000000000010#32 = .command (.cld 4 2) := by decide
theorem test_decode_pst : decode 0b01101000000101000000000000010000#32 = .command (.pst 16 1 2) := by decide
theorem test_decode_pldx : decode 0b01101100100000000000000000000011#32 = .command (.pldx 1 3) := by decide
theorem test_decode_pldy : decode 0b01110001000000000000000000000011#32 = .command (.pldy 2 3) := by decide
theorem test_decode_clrerr : decode 0b11111100000000000000000000000000#32 = .command .clrerr := by decide

theorem test_decode_illegal : decode 0x0C000001#32 = .illegal .reservedBit ∧ decode 0x04400000#32 = .illegal .reservedBit ∧
    decode 0x44800A03#32 = .illegal .reservedBit ∧ decode 0x24000000#32 = .illegal .reservedOpcode := by decide

theorem test_encode : encode (.mpow 5 1 4) = 0x1E980000#32 ∧ encode (.lagr0 0 16 3) = 0x48001003#32 ∧
    encode (.pst 16 1 2) = 0x68140010#32 ∧ encode .clrerr = 0xFC000000#32 := by decide

theorem test_decodeTableWord : decodeTableWord 32 0x0FEC0000 = some (.madd 7 6 6) ∧ decodeTableWord 32 0x0C000001 = none := by
  decide

/-! ### The assembler (R69, R70) -/

theorem test_asm_hex : assembleLine ['L', 'D', 'I', ' ', 'f', '1', ',', ' ', '0', 'x', '7', '3'] = some [0x04800073#32] := by
  decide
theorem test_asm_refuses : assembleLine ['l', 'd', 'i', ' ', 'f', '1', ',', '5', '1', '2'] = none ∧
    assembleLine ['m', 'n', 'e', 'g', ' ', 'f', '2', ',', 'f', '2'] = none := by decide
theorem test_asm_mdiv : assembleLine ['M', 'D', 'I', 'V', ' ', 'f', '3', ',', 'f', '1', ',', 'f', '1', ',', 'f', '2'] =
    some [0x19100000#32, 0x15940000#32] := by decide

/-! ### One step of each command (95_test_vectors.md section 2) -/

theorem test_nop : entryAfter (run 0 { start [] [] [] [] with cmdcnt := 5#32 }) .c 0 = some (none, 6#32) := by decide
theorem test_nop_wraps : entryAfter (run 0 { start [] [] [] [] with cmdcnt := 0xFFFFFFFF#32 }) .c 0 = some (none, 0#32) := by
  decide
theorem test_ldi : after (run 0x04800073 (start [] [] [] [])) 1 = some (115, 0#32) := by decide
theorem test_ldi_reduced : after (run 0x058001FF (start [] [] [] [])) 3 = some (254, 0#32) := by decide
theorem test_mov : after (run 0x0AA00000 (start [0, 0, 256] [] [] [])) 5 = some (256, 0#32) := by decide
theorem test_madd : after (run 0x0D940000 (start [0, 200, 100] [] [] [])) 3 = some (43, 0#32) := by decide
theorem test_madd_source : after (run 0x0C920000 (start [0, 200] [] [] [])) 1 = some (143, 0#32) := by decide
theorem test_msub : after (run 0x11940000 (start [0, 5, 7] [] [] [])) 3 = some (255, 0#32) := by decide
theorem test_msub_wraps : after (run 0x11940000 (start [0, 0, 1] [] [] [])) 3 = some (256, 0#32) := by decide
theorem test_mmul : after (run 0x15940000 (start [0, 256, 9] [] [] [])) 3 = some (248, 0#32) := by decide
theorem test_mmul_max : after (run 0x15940000 (start [0, 256, 256] [] [] [])) 3 = some (1, 0#32) := by decide
theorem test_minv : after (run 0x19100000 (start [0, 16] [] [] [])) 2 = some (241, 0#32) := by decide +kernel
theorem test_minv_zero : after (run 0x19100000 (start [0, 0, 77] [] [] [])) 2 = some (77, 0x0632#32) := by decide
theorem test_mpow : after (run 0x1D940000 (start [0, 3, 128] [] [] [])) 3 = some (256, 0#32) := by decide +kernel
theorem test_mpow_zero : after (run 0x1D940000 (start [0, 0, 0] [] [] [])) 3 = some (1, 0#32) := by decide
theorem test_mpowi : after (run 0x2110FFFF (start [0, 3] [] [] [])) 2 = some (86, 0#32) := by decide +kernel
theorem test_mpowi_zero : after (run 0x21100000 (start [0, 0] [] [] [])) 2 = some (1, 0#32) := by decide
theorem test_peval : after (run 0x41100003 (start [0, 2] [115, 63, 76] [] [])) 2 = some (31, 0#32) := by decide
theorem test_peval_unwritten : faultOf (run 0x41100003 (start [0, 2] [115, 63] [] [])) = some (.unwrittenEntry .c 2) := by
  decide
theorem test_split : entryAfter (run 0x44000A03 (start [] [115, 63, 76] [] [])) .y 9 = some (some 0x79#9, 1#32) := by decide
theorem test_split_params : after (run 0x44000203 (start [] [] [] [])) 0 = some (0, 0x1112#32) := by decide
theorem test_lagr0 : after (run 0x48000003 (start [] [] [1, 2, 3] [0xFE, 0x1F, 0xD9])) 0 = some (0x73, 0#32) := by
  decide +kernel
theorem test_lagr0_duplicate : after (run 0x48000002 (start [] [] [5, 5] [9, 9])) 0 = some (0, 0x1222#32) := by decide
theorem test_cst : entryAfter (run 0x601000FF (start [0, 9] [] [] [])) .c 255 = some (some 9#9, 1#32) := by decide
theorem test_cld : after (run 0x66000002 (start [] [115, 63, 76] [] [])) 4 = some (76, 0#32) := by decide
theorem test_cld_unwritten : faultOf (run 0x64000000 State.reset) = some (.unwrittenEntry .c 0) := by decide
theorem test_pst_x : entryAfter (run 0x68140010 (start [0, 4, 0x29] [] [] [])) .x 16 = some (some 4#9, 1#32) := by decide
theorem test_pst_y : entryAfter (run 0x68140010 (start [0, 4, 0x29] [] [] [])) .y 16 = some (some 0x29#9, 1#32) := by decide
theorem test_pldx : after (run 0x6C800003 (start [] [] [1, 2, 3, 4] [])) 1 = some (4, 0#32) := by decide
theorem test_pldy : after (run 0x71000000 (start [] [] [] [256, 0])) 2 = some (256, 0#32) := by decide
theorem test_clrerr : after (run 0xFC000000 { start [] [] [] [] with err := true, errcode := .divisionByZero, errop := 6#6 }) 0 =
    some (0, 0#32) := by decide

theorem test_illegal : after (run 0x24000000 (start [] [] [] [])) 0 = some (0, 0x0952#32) ∧
    after (run 0x20010000 (start [] [] [] [])) 0 = some (0, 0x0852#32) ∧
    after (run 0x00000001 (start [] [] [] [])) 0 = some (0, 0x0052#32) := by decide
theorem test_lagr0_empty : after (run 0x48000000 (start [] [] [] [])) 0 = some (0, 0x1242#32) ∧
    after (run 0x4800FF02 (start [] [] [] [])) 0 = some (0, 0x1212#32) := by decide

/-! ### The bus (95_test_vectors.md section 2.6), through the operations a host transaction reaches -/

theorem test_bus_write_reduced : (State.reset.busWrite 0x020 0x000001FF#32).num 0 = 254 ∧
    (State.reset.busWrite 0x020 0x00000100#32).num 0 = 256 ∧ (State.reset.busWrite 0x020 0x00000273#32).num 0 = 115 := by decide
theorem test_bus_write_last : (State.reset.busWrite 0xFFC 7#32).entry .y 255 = some 7#9 := by decide
theorem test_bus_read_id : State.reset.busRead 0x000 = .next { State.reset with rdata := 0x00070101#32 } := rfl
theorem test_bus_cmd_busy : (State.busWrite { State.reset with busy := true, latch := 0x44000A03#32 } 0x008 0#32).statusWord =
    0x1163#32 := by decide
theorem test_bus_cmd_discarded :
    State.busWrite { State.reset with err := true, errcode := .divisionByZero, errop := 6#6 } 0x008 0x04800009#32 =
      { State.reset with err := true, errcode := .divisionByZero, errop := 6#6 } := by decide
theorem test_bus_misaligned : State.reset.busRefusal 0x022 .word 0xF#4 = some .misalignedAccess ∧
    State.reset.busRefusal 0x020 .byte 0xF#4 = some .subWordAccess ∧
    State.reset.busRefusal 0x020 .word 0x1#4 = some .subWordAccess := by decide
theorem test_reset_abandons : State.setRst { start [1, 2] [3] [4] [5] with busy := true, cmdcnt := 9#32 } true =
    { State.reset with rst := true } := by decide

/-! ### Witnesses: for every statement with hypotheses, values that meet them, clause by clause, at the edges of ranges -/

/-- The state of the first byte column of W1 with C, X and Y written, F = (256, 3, 0, 128, 1, 2, 255, 200). -/
def column : State := start [256, 3, 0, 128, 1, 2, 255, 200] [115, 63, 76] [1, 2, 3] [0xFE, 0x1F, 0xD9]

/-- A command in flight with these actions of the host to come. -/
def flight (latch : Word) (inputs : List Event) : State := { column with busy := true, latch := latch, inputs := inputs }

/-- An idle core with these actions of the host to come. -/
def idle (inputs : List Event) : State := { column with inputs := inputs }

/-- The record of a failed MINV. -/
def failed (s : State) : State := { s with err := true, errcode := .divisionByZero, errop := 6#6 }

/-- Every entry of X and Y written: X[k] = k, Y[k] = 1. -/
def wide : State := { start [7] [] [] [] with
  bufX := Memory.writeFrom 0 ((List.range 256).map toElem) [], bufY := Memory.writeFrom 0 ((List.replicate 256 1).map toElem) [] }

theorem witness_DecodeEncodeRoundTrip : (Instr.mpowi 7 7 65535).wellFormed = true ∧ (Instr.lagr0 7 255 255).wellFormed = true := by
  decide

theorem witness_EncodeDecodeRoundTrip : decode 0x058001FF#32 = .command (.ldi 3 511) := by decide

theorem witness_DecodingFollowsOpcodeMap : (∃ r ∈ opcodeMap, 0xFC000000#32 &&& r.mask = r.pattern) ∧
    ∀ r ∈ opcodeMap, 0xF8000000#32 &&& r.mask ≠ r.pattern := by decide

theorem witness_IllegalWordsRaiseIllegalCommand :
    (opcodeOf 0x24000000#32).toNat ∈ List.range' 0x09 7 ++ List.range' 0x13 5 ++ List.range' 0x1D 34 ∧
    (opcodeOf 0xF8000000#32).toNat ∈ List.range' 0x09 7 ++ List.range' 0x13 5 ++ List.range' 0x1D 34 ∧
    decode (flight 0x0C000001#32 []).latch = .illegal .reservedBit := by decide

/-- Both clauses of every RowOf: a word the row's command has, and one of its opcode with reserved bit 16 set, in a latch. -/
theorem witness_RowOf : ∀ r ∈ opcodeMap, r.pattern &&& r.mask = r.pattern ∧
    opcodeOf (r.pattern ||| 0x00010000#32) = r.op ∧ (r.pattern ||| 0x00010000#32) &&& r.mask ≠ r.pattern ∧
    (flight (r.pattern ||| 0x00010000#32) []).latch = r.pattern ||| 0x00010000#32 := by decide

theorem witness_MsubSubtractsModP : Canonical (column.getF 0) ∧ Canonical (column.getF 2) ∧ column.num 2 ≤ column.num 0 ∧
    ¬ column.num 0 ≤ column.num 2 := by unfold Canonical; decide

theorem witness_MinvInvertsOrRaises : column.num 2 = 0 ∧ 1 ≤ column.num 4 ∧ column.num 4 = 1 ∧ column.num 0 = 256 := by decide

theorem witness_MpowRaisesToRegister : 1 ≤ column.num 0 ∧ column.num 0 ≤ 256 ∧ column.num 4 = 1 ∧ column.num 0 = 256 := by
  decide

theorem witness_MpowiRaisesToImmediate : column.num 1 = 3 ∧ column.num 0 = 256 := by decide

theorem witness_DivisionByInverse : (7 : Reg) ≠ 0 ∧ column.num 2 = 0 ∧ 1 ≤ column.num 4 ∧ column.num 0 ≤ 256 := by decide

theorem witness_InversionIsInvolution : 1 ≤ column.num 4 ∧ column.num 0 ≤ 256 ∧ (5 : Reg) ≠ 0 ∧
    column.getF 0 = (failed column).getF 0 ∧ (∃ t, exec (.minv 5 4) column = .next t) := by
  refine ⟨by decide, by decide, by decide, rfl, _, rfl⟩

theorem witness_MultiplicationLaws : Canonical (column.getF 0) ∧ Canonical (column.getF 2) ∧ column.num 0 = 256 := by
  unfold Canonical; decide

theorem witness_ExponentiationLaws : Canonical (column.getF 0) := by unfold Canonical; decide

theorem witness_ArithmeticUndoLaws : Canonical (column.getF 0) ∧ (5 : Reg) ≠ 1 ∧ 1 ≤ column.num 4 ∧ column.num 0 ≤ 256 := by
  unfold Canonical; decide

theorem witness_PseudoInstructionsCompute : (0 : Reg) ≠ 7 := by decide

theorem witness_PevalEvaluatesPolynomial : CoeffsWritten column 1 ∧ CoeffsWritten column 3 ∧
    (∀ k < 3, entryNum column .c k ≤ 256) ∧ ¬ CoeffsWritten column 4 := by unfold CoeffsWritten; decide

theorem witness_SplitWritesShares : (0 < 1 ∧ 4 > 3 ∧ 256 > 255) ∧ 1 ≤ 3 ∧ 3 ≤ 255 ∧ CoeffsWritten column 3 ∧
    (∀ k < 3, entryNum column .c k ≤ 256) ∧ ¬ CoeffsWritten column 4 := by unfold CoeffsWritten; decide

theorem witness_CoefficientsBeyondThresholdUnread :
    (∀ r, (column.setEntry .c 3 7#9).getF r = column.getF r) ∧
    (∀ k < 3, (column.setEntry .c 3 7#9).entry .c k = column.entry .c k) ∧ CoeffsWritten column 3 ∧
    ¬ CoeffsWritten (start [] [115] [] []) 3 ∧ 3 ≤ 255 := by unfold CoeffsWritten; decide

theorem witness_PevalAgreesWithSplit : CoeffsWritten column 3 ∧ 1 ≤ 3 ∧ 3 ≤ 200 ∧ 200 ≤ 255 ∧ column.num 7 = 200 ∧
    column.num 4 = 1 := by unfold CoeffsWritten; decide

theorem witness_Lagr0InterpolatesAtZero : 256 < 255 + 2 ∧ WindowWritten column 0 3 ∧ DistinctXs column 0 3 ∧
    (∀ j < 3, entryNum column .x (0 + j) ≤ 256) ∧ WindowWritten (start [] [] [5, 5] [9, 9]) 0 2 ∧
    ¬ DistinctXs (start [] [] [5, 5] [9, 9]) 0 2 := by unfold WindowWritten DistinctXs; decide

theorem witness_Lagr0WidestWindow : 255 + 1 ≤ 256 ∧ WindowWritten wide 255 1 ∧ DistinctXs wide 255 1 := by
  unfold WindowWritten DistinctXs; decide +kernel

theorem witness_Lagr0FaultsOnUnwrittenPair : 1 ≤ 1 ∧ 255 + 1 ≤ 256 ∧ ¬ WindowWritten column 255 1 ∧
    ¬ WindowWritten (start [] [] [1, 2] [9]) 0 2 := by unfold WindowWritten; decide

theorem witness_Lagr0AcceptsZeroX : WindowWritten (start [] [] [256, 0] [7, 256]) 0 2 ∧
    DistinctXs (start [] [] [256, 0] [7, 256]) 0 2 ∧ (∀ j < 2, entryNum (start [] [] [256, 0] [7, 256]) .x (0 + j) ≤ 256 ∧
    entryNum (start [] [] [256, 0] [7, 256]) .y (0 + j) ≤ 256) ∧ entryNum (start [] [] [256, 0] [7, 256]) .x (0 + 1) = 0 := by
  unfold WindowWritten DistinctXs; decide

theorem witness_EnoughSharesGiveConstantTerm : WindowWritten column 0 3 ∧ DistinctXs column 0 3 ∧
    [115, 63, 76].getD 0 0 ≤ 256 ∧ ∀ j < 3, entryNum column .x (0 + j) ≤ 256 ∧ entryNum column .y (0 + j) =
      (∑ k ∈ Finset.range 3, [115, 63, 76].getD k 0 * entryNum column .x (0 + j) ^ k) % 257 := by
  unfold WindowWritten DistinctXs; decide

theorem witness_SplitThenJoinRecoversSecret : CoeffsWritten column 3 ∧ (∀ k < 3, entryNum column .c k ≤ 256) ∧ 3 ≤ 255 ∧
    252 + 3 ≤ 255 := by unfold CoeffsWritten; decide

theorem witness_JoinIgnoresPairOrder : WindowWritten column 0 3 ∧ DistinctXs column 0 3 ∧
    (∀ j < 3, entryNum column .x (0 + j) ≤ 256) ∧
    ∀ j : Fin 3, (start [] [] [3, 1, 2] [0xD9, 0xFE, 0x1F]).entry .x (0 + j) = column.entry .x (0 + (finRotate 3).symm j) ∧
      (start [] [] [3, 1, 2] [0xD9, 0xFE, 0x1F]).entry .y (0 + j) = column.entry .y (0 + (finRotate 3).symm j) := by
  unfold WindowWritten DistinctXs; decide

theorem witness_LdiLoadsReducedImmediate : 511 ≤ 511 := by decide

theorem witness_CldLoadsCoefficient : column.entry .c 2 = some 76#9 ∧ column.entry .c 255 = none := by decide

theorem witness_PldxPldyLoadPair : column.entry .x 0 = some 1#9 ∧ column.entry .y 0 = some 0xFE#9 ∧
    column.entry .x 255 = none ∧ column.entry .y 255 = none := by decide

theorem witness_ClrerrClearsRecord :
    (failed (idle [hostWr 0x008 0xFC000000#32])).inputs = hostWr 0x008 0xFC000000#32 :: [] ∧
    (failed (idle [hostWr 0x008 0xFC000001#32])).inputs = hostWr 0x008 0xFC000001#32 :: [] ∧
    (failed (idle [hostWr 0x008 0#32])).rst = false ∧ (failed (idle [hostWr 0x008 0#32])).busy = false ∧
    (failed (idle [hostWr 0x008 0#32])).err = true := ⟨rfl, rfl, rfl, rfl, rfl⟩

theorem witness_StepRunsDecodedCommand : CompletionNext (flight 0x04800003#32 []) ∧
    CompletionNext (flight 0x24000000#32 [.coreTurn]) ∧ decode (flight 0x04800003#32 []).latch = .command (.ldi 1 3) ∧
    decode (flight 0x24000000#32 [.coreTurn]).latch = .illegal .reservedOpcode := by unfold CompletionNext; decide

theorem witness_CompletionCountsOrFails : CompletionNext (flight 0xFC000000#32 []) ∧
    (∃ t, step (flight 0xFC000000#32 []) = .next t) ∧
    (flight 0#32 [hostRd 0x020]).inputs = hostRd 0x020 :: [] ∧ (flight 0#32 [hostRd 0x020]).rst = false ∧
    (flight 0#32 [hostRd 0x020]).busy = true ∧ (∃ t, step (flight 0#32 [hostRd 0x020]) = .next t) :=
  ⟨⟨rfl, rfl, .inl rfl⟩, ⟨_, rfl⟩, rfl, rfl, rfl, ⟨_, (step_hostRd (off := 0x020) (rest := []) rfl rfl (by decide) (by decide)).trans rfl⟩⟩

theorem witness_CmdWriteAccepted : (idle [hostWr 0x008 0#32]).inputs = hostWr 0x008 0#32 :: [] ∧
    (idle [hostWr 0x008 0#32]).rst = false ∧ (idle [hostWr 0x008 0#32]).busy = false ∧
    (idle [hostWr 0x008 0#32]).err = false := ⟨rfl, rfl, rfl, rfl⟩

theorem witness_CmdWriteDiscarded : (flight 0#32 [hostWr 0x008 0#32]).inputs = hostWr 0x008 0#32 :: [] ∧
    (flight 0#32 [hostWr 0x008 0#32]).busy = true ∧ (flight 0#32 [hostWr 0x008 0#32]).err = false ∧
    (failed (flight 0#32 [hostWr 0x008 0#32])).err = true ∧ (failed (idle [hostWr 0x008 0#32])).busy = false ∧
    (0#32 : Word) ≠ 0xFC000000#32 := ⟨rfl, rfl, rfl, rfl, rfl, by decide⟩

theorem witness_FirstErrorWins : column.err = false ∧ (failed column).err = true := by decide

theorem witness_BusyWriteIsViolation : (flight 0#32 [hostWr 0xFFC 0#32]).inputs = hostWr 0xFFC 0#32 :: [] ∧
    (flight 0#32 [hostWr 0x03C 0#32]).busy = true ∧ (failed (flight 0#32 [hostWr 0x020 0#32])).err = true ∧
    (flight 0#32 [hostWr 0x040 0#32]).inputs = hostWr 0x040 0#32 :: [] ∧
    ¬ (0x040 = 0x008 ∨ (0x020 ≤ 0x040 ∧ 0x040 < 0x040) ∨ 0x400 ≤ 0x040) ∧
    (flight 0#32 [hostRd 0xFFC]).inputs = hostRd 0xFFC :: [] ∧
    CompletionNext (failed (flight 0x04800003#32 [])) ∧ (∃ t, step (failed (flight 0x04800003#32 [])) = .next t) :=
  ⟨rfl, rfl, rfl, rfl, by decide, rfl, ⟨rfl, rfl, .inl rfl⟩, ⟨_, rfl⟩⟩

theorem witness_WriteAndCompletionOrders :
    (flight 0x04800003#32 [hostWr 0x03C 9#32, .coreTurn]).inputs = hostWr 0x03C 9#32 :: .coreTurn :: [] ∧
    (flight 0x04800003#32 [.coreTurn, hostWr 0x008 9#32]).inputs = .coreTurn :: hostWr 0x008 9#32 :: [] ∧
    (∃ t u, step (flight 0x04800003#32 [hostWr 0x03C 9#32, .coreTurn]) = .next t ∧ step t = .next u) ∧
    (∃ t u, step (flight 0x04800003#32 [.coreTurn, hostWr 0x008 9#32]) = .next t ∧ step t = .next u) ∧
    (flight 0x04800003#32 []).err = false ∧ (flight 0x04800003#32 []).latch ≠ 0xFC000000#32 := by
  refine ⟨rfl, rfl,
    ⟨_, _, step_hostWr (off := 0x03C) (w := 9#32) (rest := [.coreTurn]) rfl rfl (by decide) (by decide), rfl⟩,
    ⟨_, _, rfl, step_hostWr (off := 0x008) (w := 9#32) (rest := []) rfl rfl (by decide) (by decide)⟩, rfl, by decide⟩

theorem witness_OnlyClrerrOrResetClearsErr : (failed (idle [])).err = true ∧ (∃ t, step (failed (idle [])) = .next t) ∧
    CompletionNext (failed (flight 0xFC000000#32 [])) ∧ (failed { column with rst := true }).rst = true :=
  ⟨rfl, ⟨_, rfl⟩, ⟨rfl, rfl, .inl rfl⟩, rfl⟩

theorem witness_CmdcntCountsSuccesses : (∃ t, step (flight 0x04800003#32 []) = .next t) ∧
    (flight 0x04800003#32 []).rst = false ∧ (flight 0x04800003#32 []).inputs.head? ≠ some (.rst true) :=
  ⟨⟨_, rfl⟩, rfl, by decide⟩

theorem witness_StatusLayout : (flight 0#32 [hostRd 0x004]).inputs = hostRd 0x004 :: [] ∧
    (flight 0#32 [hostRd 0x004]).rst = false ∧
    (flight 0#32 [hostWr 0x004 0xFFFFFFFF#32]).inputs = hostWr 0x004 0xFFFFFFFF#32 :: [] := ⟨rfl, rfl, rfl⟩

theorem witness_ReadOnlyAndReservedOffsets : (flight 0#32 [hostRd 0x000]).inputs = hostRd 0x000 :: [] ∧
    (idle [hostRd 0x01C]).inputs = hostRd 0x01C :: [] ∧ (idle [hostRd 0x3FC]).inputs = hostRd 0x3FC :: [] ∧
    (idle [hostWr 0x040 1#32]).inputs = hostWr 0x040 1#32 :: [] ∧ (idle [hostWr 0x00C 1#32]).inputs = hostWr 0x00C 1#32 :: [] ∧
    0x3FC % 4 = 0 ∧ 0x01C % 4 = 0 := ⟨rfl, rfl, rfl, rfl, rfl, rfl, rfl⟩

theorem witness_ReadsFollowAddressMap : (idle [hostRd 0x03C]).inputs = hostRd 0x03C :: [] ∧ (idle []).busy = false ∧
    0x03C = 0x020 + 4 * (7 : Reg).val ∧ 0x7FC = 0x400 + 4 * (255 : Idx).val ∧ 0xBFC = 0x800 + 4 * (255 : Idx).val ∧
    0xFFC = 0xC00 + 4 * (255 : Idx).val ∧ column.entry .x 0 = some 1#9 ∧ column.entry .y (255 : Idx) = none := by
  refine ⟨rfl, rfl, ?_⟩; decide

theorem witness_FieldWritesAreReduced : (idle [hostWr 0x03C 0x1FF#32]).inputs = hostWr 0x03C 0x1FF#32 :: [] ∧
    (idle [hostWr 0x7FC 0x100#32]).inputs = hostWr 0x7FC 0x100#32 :: [] ∧ (idle []).busy = false ∧
    (flight 0#32 [hostWr 0xFFC 1#32]).inputs = hostWr 0xFFC 1#32 :: [] ∧ (flight 0#32 []).busy = true ∧ 0xFFC % 4 = 0 ∧
    (idle [hostRd 0x400]).inputs = hostRd 0x400 :: [] ∧ column.entry .c (0 : Idx) = some 115#9 :=
  ⟨rfl, rfl, rfl, rfl, rfl, rfl, rfl, by decide⟩

theorem witness_BusyReadsAreFree : (flight 0#32 [hostRd 0x020]).inputs = hostRd 0x020 :: [] ∧
    (flight 0#32 [hostRd 0x400]).inputs = hostRd 0x400 :: [] ∧ (flight 0#32 [hostRd 0x00C]).inputs = hostRd 0x00C :: [] ∧
    (flight 0#32 [hostRd 0x010]).inputs = hostRd 0x010 :: [] ∧ (flight 0#32 []).rst = false ∧ (flight 0#32 []).busy = true :=
  ⟨rfl, rfl, rfl, rfl, rfl, rfl⟩

theorem witness_ReadsHaveNoSideEffect :
    (∃ t, step (idle [hostRd 0x03C]) = .next t) ∧
    (∃ t u, step (idle [hostRd 0x03C, hostRd 0x03C]) = .next t ∧ step t = .next u) ∧
    (∃ t u, step (idle [hostWr 0x03C 9#32, hostWr 0x03C 9#32]) = .next t ∧ step t = .next u) ∧
    (idle [hostWr 0x008 0#32, .coreTurn, hostWr 0x008 0#32]).inputs =
      hostWr 0x008 0#32 :: .coreTurn :: hostWr 0x008 0#32 :: [] ∧ (idle []).err = false := by
  refine ⟨⟨_, (step_hostRd (off := 0x03C) (rest := []) rfl rfl (by decide) (by decide)).trans rfl⟩,
    ⟨_, _, (step_hostRd (off := 0x03C) (rest := [hostRd 0x03C]) rfl rfl (by decide) (by decide)).trans rfl,
      (step_hostRd (off := 0x03C) (rest := []) rfl rfl (by decide) (by decide)).trans rfl⟩,
    ⟨_, _, step_hostWr (off := 0x03C) (w := 9#32) (rest := [hostWr 0x03C 9#32]) rfl rfl (by decide) (by decide),
      step_hostWr (off := 0x03C) (w := 9#32) (rest := []) rfl rfl (by decide) (by decide)⟩, rfl, rfl⟩

theorem witness_MalformedAccessRefused : (idle [hostRd 0xFFE]).inputs = hostRd 0xFFE :: [] ∧ 0xFFE % 4 ≠ 0 ∧
    (idle [hostWr 0x022 1#32]).inputs = hostWr 0x022 1#32 :: [] ∧
    (idle [.read (Config.base + 0x020) .byte]).inputs = .read (Config.base + 0x020) .byte :: [] ∧
    (idle [.write (Config.base + 0x020) .word 0x7#4 1#32]).inputs = .write (Config.base + 0x020) .word 0x7#4 1#32 :: [] ∧
    Size.byte ≠ .word ∧ (0x7#4 : BitVec 4) ≠ 0xF#4 := ⟨rfl, by decide, rfl, rfl, rfl, by decide, by decide⟩

/-- Accesses that are misaligned and sub-word at once, the overlap log entry 13 settles: they meet the second clause. -/
theorem witness_MalformedAccessOverlap :
    (idle [.read (Config.base + 0xFFF) .half]).inputs = .read (Config.base + 0xFFF) .half :: [] ∧
    (idle [.write (Config.base + 0x022) .word 0x3#4 1#32]).inputs = .write (Config.base + 0x022) .word 0x3#4 1#32 :: [] ∧
    (idle []).rst = false ∧ 0xFFF < 4096 ∧ 0xFFF % 4 ≠ 0 ∧ Size.half ≠ .word ∧ 0x022 % 4 ≠ 0 ∧ (0x3#4 : BitVec 4) ≠ 0xF#4 :=
  ⟨rfl, rfl, rfl, by decide, by decide, by decide, by decide, by decide⟩

/-- The order of log entry 13: a sub-word access is refused as sub-word although it is misaligned too. -/
theorem test_bus_malformed_order : State.reset.busRefusal 0xFFF .half 0xF#4 = some .subWordAccess ∧
    State.reset.busRefusal 0x022 .word 0x3#4 = some .subWordAccess := by decide

theorem witness_OutsideWindowUntouched : Config.base + 4096 ≤ Config.base + 4096 ∧
    (idle [.read (Config.base + 4096) .byte]).inputs = .read (Config.base + 4096) .byte :: [] ∧
    (idle [.write (Config.base + 4096) .word 0x1#4 1#32]).inputs = .write (Config.base + 4096) .word 0x1#4 1#32 :: [] :=
  ⟨le_refl _, rfl, rfl⟩

theorem witness_ResetPutsEverythingBack : (flight 0x44000A03#32 [.rst true]).inputs = .rst true :: [] ∧
    { column with rst := true, inputs := [Event.rst false] }.inputs = Event.rst false :: [] ∧
    { column with rst := true, inputs := [hostRd 0] }.rst = true ∧
    { column with rst := true, inputs := [hostRd 0] }.inputs = Event.read (Config.base + 0) .word :: [] :=
  ⟨rfl, rfl, rfl, rfl⟩

theorem witness_ReadyAfterReset :
    { State.reset with rst := true, inputs := [Event.rst false, hostWr 0x008 0#32] }.inputs =
      Event.rst false :: hostWr 0x008 0#32 :: [] ∧
    { State.reset with rst := true, inputs := [Event.rst false, hostWr 0x008 0#32] }.rst = true := ⟨rfl, rfl⟩

theorem witness_StepKeepsInvariant : Inv { State.reset with busy := true, latch := 0x04800003#32 } ∧
    ∃ t, step { State.reset with busy := true, latch := 0x04800003#32 } = .next t := by
  refine ⟨⟨⟨fun i => ?_, fun b k v h => ?_⟩, fun b => by cases b <;> rfl, ⟨Iff.intro (fun _ => rfl) fun _ => rfl, fun _ => rfl⟩,
    fun h => absurd h (by decide)⟩, ⟨_, rfl⟩⟩
  · show (State.reset.getF i).toNat ≤ 256
    simp
  · cases b <;> cases h

theorem witness_CommandRunsIffReadsWritten : ReadsWritten (.peval 0 1 3) column ∧ ¬ ReadsWritten (.cld 0 255) column ∧
    ReadsWritten (.split 3 0) column ∧ ¬ ReadsWritten (.lagr0 0 0 4) column := by unfold ReadsWritten; decide

theorem witness_CommandsReadOnlyTheirOperands : (∀ r, (failed column).getF r = column.getF r) ∧
    (∀ p ∈ (Instr.lagr0 0 0 3).reads, (failed column).entry p.1 p.2 = column.entry p.1 p.2) ∧
    ∃ t, exec (.cld 0 2) column = .next t := ⟨by decide, by decide, ⟨_, rfl⟩⟩

end Sys2Proof.Tests
end

section
/-! PROOFS. The family of 10_state.md: what stands at the fixed registers and the reserved offsets of the window (R45), what
reads and writes there do (R30, R46), and the values right after reset (R36). -/

namespace Sys2Proof.Machine

/-! ### The address map at the fixed registers and the reserved offsets -/

@[simp] theorem locate_id : locate 0x000 = .id := rfl
@[simp] theorem locate_status : locate 0x004 = .status := rfl
@[simp] theorem locate_cmd : locate 0x008 = .cmd := rfl
@[simp] theorem locate_cmdcnt : locate 0x00C = .cmdcnt := rfl

/-- The two reserved ranges of the map (R45): below the registers F and below the buffers. -/
theorem locate_reserved {off : Nat} (h : (0x010 ≤ off ∧ off ≤ 0x01C) ∨ (0x040 ≤ off ∧ off ≤ 0x3FC)) :
    locate off = .reserved := by
  unfold locate
  obtain ⟨hlo, hhi⟩ | ⟨hlo, hhi⟩ := h
  · rw [if_neg (by omega), if_neg (by omega), if_neg (by omega), if_neg (by omega), if_pos (by omega)]
  · rw [if_neg (by omega), if_neg (by omega), if_neg (by omega), if_neg (by omega), if_neg (by omega),
      if_neg (by omega), if_pos (by omega)]

/-! ### Bus reads and writes there -/

theorem busRead_id {s : State} {off : Nat} (h : locate off = .id) : s.busRead off = .next (s.answer Config.id) := by
  simp [State.busRead, h]

theorem busRead_cmd {s : State} {off : Nat} (h : locate off = .cmd) : s.busRead off = .next (s.answer 0#32) := by
  simp [State.busRead, h]

theorem busRead_reserved {s : State} {off : Nat} (h : locate off = .reserved) :
    s.busRead off = .next (s.answer 0#32) := by
  simp [State.busRead, h]

/-- A write to a read-only register or a reserved offset is ignored (R46). -/
theorem busWrite_ignored {s : State} {off : Nat} (w : Word)
    (h : locate off = .id ∨ locate off = .status ∨ locate off = .cmdcnt ∨ locate off = .reserved) :
    s.busWrite off w = s := by
  unfold State.busWrite
  obtain h | h | h | h := h <;> rw [h]

/-! ### The statements -/

/-- Settles O46: the map names what stands at the offset, and no read or write there looks at BUSY. -/
theorem readOnlyAndReservedOffsets : Obligations.ReadOnlyAndReservedOffsets := by
  intro s off rest hr ho ha
  refine ⟨fun hin hid => ?_, fun hin hres => ?_, fun w hin hoff => ?_⟩
  · subst hid
    exact (step_hostRd hin hr ho ha).trans (busRead_id locate_id)
  · exact (step_hostRd hin hr ho ha).trans (busRead_reserved (locate_reserved hres))
  · have hloc : locate off = .id ∨ locate off = .status ∨ locate off = .cmdcnt ∨ locate off = .reserved := by
      obtain rfl | rfl | rfl | hres := hoff
      · exact .inl locate_id
      · exact .inr (.inl locate_status)
      · exact .inr (.inr (.inl locate_cmdcnt))
      · exact .inr (.inr (.inr (locate_reserved hres)))
    rw [step_hostWr hin hr ho ha, busWrite_ignored w hloc]

/-- Settles O53: the fields of the reset state, and a read of ID and of CMD from it. -/
theorem resetValues : Obligations.ResetValues := by
  refine ⟨State.getF_reset, rfl, rfl, rfl, rfl, rfl, rfl, fun b k => State.entry_reset b k, fun rest => ⟨?_, ?_⟩⟩
  · exact (step_hostRd (off := 0x000) rfl rfl (by decide) (by decide)).trans (busRead_id locate_id)
  · exact (step_hostRd (off := 0x008) rfl rfl (by decide) (by decide)).trans (busRead_cmd locate_cmd)

end Sys2Proof.Machine
end

section
/-! PROOFS. The family of 20_memory.md: field-typed locations of the window (R47), and which accesses have no effect or
no further effect (R48). -/

namespace Sys2Proof.Machine

/-! ### The address map at the field-typed locations (R45) -/

theorem locate_field {off : Nat} {i : Reg} (h : off = 0x020 + 4 * i.val) : locate off = .field i := by
  have hi := i.isLt
  unfold locate
  rw [if_neg (by omega), if_neg (by omega), if_neg (by omega), if_neg (by omega), if_neg (by omega), if_pos (by omega)]
  congr
  ext
  simp only [Fin.ofNat_eq_cast, Fin.val_natCast]
  omega

theorem locate_entry {off : Nat} {b : Buf} {k : Idx}
    (h : (b = .c ∧ off = 0x400 + 4 * k.val) ∨ (b = .x ∧ off = 0x800 + 4 * k.val) ∨
      (b = .y ∧ off = 0xC00 + 4 * k.val)) :
    locate off = .entry b k := by
  have hk := k.isLt
  have index {lo : Nat} (ho : off = lo + 4 * k.val) : Fin.ofNat 256 ((off - lo) / 4) = k := by
    ext
    simp only [Fin.ofNat_eq_cast, Fin.val_natCast]
    omega
  unfold locate
  rw [if_neg (by omega), if_neg (by omega), if_neg (by omega), if_neg (by omega), if_neg (by omega), if_neg (by omega),
    if_neg (by omega)]
  obtain ⟨rfl, ho⟩ | ⟨rfl, ho⟩ | ⟨rfl, ho⟩ := h
  · rw [if_pos (by omega), index ho]
  · rw [if_neg (by omega), if_pos (by omega), index ho]
  · rw [if_neg (by omega), if_neg (by omega), index ho]

/-- The field-typed range of the map holds field registers and buffer entries only. -/
theorem locate_fieldTyped {off : Nat} (h : (0x020 ≤ off ∧ off < 0x040) ∨ 0x400 ≤ off) :
    (∃ i, locate off = .field i) ∨ ∃ b k, locate off = .entry b k := by
  unfold locate
  rw [if_neg (by omega), if_neg (by omega), if_neg (by omega), if_neg (by omega), if_neg (by omega)]
  obtain ⟨_, hhi⟩ | hlo := h
  · rw [if_pos hhi]
    exact .inl ⟨_, rfl⟩
  · rw [if_neg (by omega), if_neg (by omega)]
    refine .inr ?_
    split_ifs <;> exact ⟨_, _, rfl⟩

/-! ### Writes (R47, R153) -/

theorem busOperand_toNat (w : Word) :
    (busOperand w).toNat = if w.toNat % 512 ≤ 256 then w.toNat % 512 else w.toNat % 512 - 257 := by
  have hlow : (w.extractLsb' 0 9).toNat = w.toNat % 512 := by simp [BitVec.extractLsb'_toNat]
  rw [busOperand, toElem_modP_toNat, modP_natCast, hlow]
  split <;> omega

theorem busWrite_field_idle {s : State} {off : Nat} {i : Reg} (w : Word) (hl : locate off = .field i)
    (hb : s.busy = false) : s.busWrite off w = s.setF i (busOperand w) := by
  simp [State.busWrite, hl, State.guardWrite, hb]

theorem busWrite_entry_idle {s : State} {off : Nat} {b : Buf} {k : Idx} (w : Word) (hl : locate off = .entry b k)
    (hb : s.busy = false) : s.busWrite off w = s.setEntry b k (busOperand w) := by
  simp [State.busWrite, hl, State.guardWrite, hb]

theorem busWrite_fieldTyped_busy {s : State} {off : Nat} (w : Word)
    (hl : (∃ i, locate off = .field i) ∨ ∃ b k, locate off = .entry b k) (hb : s.busy = true) :
    s.busWrite off w = s.recordError .busyViolation (opcodeOf s.latch) := by
  obtain ⟨i, hl⟩ | ⟨b, k, hl⟩ := hl <;> simp [State.busWrite, hl, State.guardWrite, hb]

theorem Memory.write_write (k : Nat) (v : Elem) (m : Memory) : (m.write k v).write k v = m.write k v := by
  induction m with
  | nil => simp [Memory.write]
  | cons p m ih =>
    obtain ⟨a, u⟩ := p
    obtain hlt | rfl | hgt := Nat.lt_trichotomy k a
    · simp [Memory.write, hlt]
    · simp [Memory.write]
    · simp [Memory.write, ih, Nat.not_lt.mpr hgt.le, hgt.ne']

theorem State.setF_again (s : State) (i : Reg) (v : Elem) (rest : List Event) :
    State.setF { s.setF i v with inputs := rest } i v = { s.setF i v with inputs := rest } := by
  simp [State.setF]

theorem State.setEntry_again (s : State) (b : Buf) (k : Nat) (v : Elem) (rest : List Event) :
    State.setEntry { s.setEntry b k v with inputs := rest } b k v = { s.setEntry b k v with inputs := rest } := by
  cases b <;> simp [State.setEntry, State.setBuf, State.buf, Memory.write_write]

theorem State.recordError_of_err {s : State} (h : s.err = true) (e : ErrCode) (op : Opcode) :
    s.recordError e op = s := by
  simp [State.recordError, h]

/-- A field-typed write repeated changes nothing more, whatever the core does with the first (R48). -/
theorem busWrite_fieldTyped_again (s : State) {off : Nat} (w : Word) (rest : List Event)
    (hl : (∃ i, locate off = .field i) ∨ ∃ b k, locate off = .entry b k) :
    State.busWrite { s.busWrite off w with inputs := rest } off w = { s.busWrite off w with inputs := rest } := by
  cases hb : s.busy with
  | true =>
    rw [busWrite_fieldTyped_busy w hl hb, busWrite_fieldTyped_busy w hl (by simp [hb]),
      State.recordError_of_err (by simp)]
  | false =>
    obtain ⟨i, hi⟩ | ⟨b, k, hk⟩ := hl
    · rw [busWrite_field_idle w hi hb, busWrite_field_idle w hi (by simp [hb]), State.setF_again]
    · rw [busWrite_entry_idle w hk hb, busWrite_entry_idle w hk (by simp [hb]), State.setEntry_again]

theorem guardWrite_inputs {s written : State} (h : written.inputs = s.inputs) :
    (s.guardWrite written).inputs = s.inputs := by
  unfold State.guardWrite
  split
  · exact State.recordError_inputs s _ _
  · exact h

/-- No bus write touches the host's coming actions. -/
theorem busWrite_inputs (s : State) (off : Nat) (w : Word) : (s.busWrite off w).inputs = s.inputs := by
  unfold State.busWrite
  cases locate off with
  | cmd => obtain ⟨_, h⟩ | ⟨_, _, _, h⟩ | ⟨_, _, h⟩ := offer_cases s w <;> simp [h]
  | field i => exact guardWrite_inputs (State.setF_inputs s i _)
  | entry b k => exact guardWrite_inputs (State.setEntry_inputs s b k _)
  | id | status | cmdcnt | reserved => rfl

/-! ### Reads (R47, R48, R186) -/

theorem busRead_status {s : State} {off : Nat} (h : locate off = .status) :
    s.busRead off = .next (s.answer s.statusWord) := by
  simp [State.busRead, h]

theorem busRead_cmdcnt {s : State} {off : Nat} (h : locate off = .cmdcnt) :
    s.busRead off = .next (s.answer s.cmdcnt) := by
  simp [State.busRead, h]

theorem busRead_field_idle {s : State} {off : Nat} {i : Reg} (hl : locate off = .field i) (hb : s.busy = false) :
    s.busRead off = .next (s.answer ((s.getF i).setWidth 32)) := by
  simp [State.busRead, hl, hb]

theorem busRead_entry_idle {s : State} {off : Nat} {b : Buf} {k : Idx} {v : Elem} (hl : locate off = .entry b k)
    (hb : s.busy = false) (hv : s.entry b k = some v) : s.busRead off = .next (s.answer (v.setWidth 32)) := by
  simp [State.busRead, hl, hb, State.readEntry, hv]

theorem busRead_entry_unwritten {s : State} {off : Nat} {b : Buf} {k : Idx} (hl : locate off = .entry b k)
    (hb : s.busy = false) (hv : s.entry b k = none) : s.busRead off = .fault (.unwrittenEntry b k) := by
  simp [State.busRead, hl, hb, State.readEntry, hv]

theorem busRead_fieldTyped_busy {s : State} {off : Nat}
    (hl : (∃ i, locate off = .field i) ∨ ∃ b k, locate off = .entry b k) (hb : s.busy = true) :
    s.busRead off = .next s.answerFree := by
  obtain ⟨i, hl⟩ | ⟨b, k, hl⟩ := hl <;> simp [State.busRead, hl, hb]

/-- A read while BUSY = 0 answers one word, whatever the last word read and the host's coming actions, or it faults. -/
theorem busRead_idle {s : State} (off : Nat) (hb : s.busy = false) :
    (∃ w, ∀ r rest, State.busRead { s with rdata := r, inputs := rest } off =
      .next { s with rdata := w, inputs := rest }) ∨ ∃ e, s.busRead off = .fault e := by
  cases hl : locate off with
  | id => exact .inl ⟨_, fun _ _ => busRead_id hl⟩
  | status => exact .inl ⟨s.statusWord, fun _ _ => busRead_status hl⟩
  | cmd => exact .inl ⟨_, fun _ _ => busRead_cmd hl⟩
  | cmdcnt => exact .inl ⟨s.cmdcnt, fun _ _ => busRead_cmdcnt hl⟩
  | reserved => exact .inl ⟨_, fun _ _ => busRead_reserved hl⟩
  | field i => exact .inl ⟨(s.getF i).setWidth 32, fun _ _ => busRead_field_idle hl hb⟩
  | entry b k =>
    cases hv : s.entry b k with
    | some v => exact .inl ⟨v.setWidth 32, fun _ _ => busRead_entry_idle hl hb hv⟩
    | none => exact .inr ⟨_, busRead_entry_unwritten hl hb hv⟩

/-- Everything a read in the window can do: answer a word, draw a free one while BUSY = 1, or fault. -/
theorem busRead_cases (s : State) (off : Nat) :
    (∃ w, s.busRead off = .next (s.answer w)) ∨ (s.busy = true ∧ s.busRead off = .next s.answerFree) ∨
      ∃ e, s.busRead off = .fault e := by
  cases hb : s.busy with
  | false =>
    obtain ⟨w, hw⟩ | hfault := busRead_idle off hb
    · exact .inl ⟨w, hw s.rdata s.inputs⟩
    · exact .inr (.inr hfault)
  | true =>
    cases hl : locate off with
    | id => exact .inl ⟨_, busRead_id hl⟩
    | status => exact .inl ⟨_, busRead_status hl⟩
    | cmd => exact .inl ⟨_, busRead_cmd hl⟩
    | cmdcnt => exact .inl ⟨_, busRead_cmdcnt hl⟩
    | reserved => exact .inl ⟨_, busRead_reserved hl⟩
    | field i => exact .inr (.inl ⟨rfl, busRead_fieldTyped_busy (.inl ⟨i, hl⟩) hb⟩)
    | entry b k => exact .inr (.inl ⟨rfl, busRead_fieldTyped_busy (.inr ⟨b, k, hl⟩) hb⟩)

/-- Everything a host read can do, by its address, its width and the reset line alone: leave the core alone outside the
window, be refused, or be the window's read at one offset. -/
theorem hostRead_cases (addr : Nat) (size : Size) (level : Bool) :
    (∀ s : State, s.rst = level → s.hostRead addr size = .next s) ∨
      (∃ r, ∀ s : State, s.rst = level → s.hostRead addr size = .refused r) ∨
      ∃ off, ∀ s : State, s.rst = level → s.hostRead addr size = s.busRead off := by
  unfold State.hostRead
  cases busOffset addr with
  | none => exact .inl fun _ _ => rfl
  | some off =>
    have hrefusal (s : State) (hs : s.rst = level) :
        s.busRefusal off size 0xF#4 = State.busRefusal { State.reset with rst := level } off size 0xF#4 := by
      simp only [State.busRefusal, hs]
    cases hf : State.busRefusal { State.reset with rst := level } off size 0xF#4 with
    | some r => exact .inr (.inl ⟨r, fun s hs => by simp only [hrefusal s hs, hf]⟩)
    | none => exact .inr (.inr ⟨off, fun s hs => by simp only [hrefusal s hs, hf]⟩)

/-- A read changes only the word read and the draws made (R48). -/
theorem hostRead_next {s t : State} {addr : Nat} {size : Size} (h : s.hostRead addr size = .next t) :
    t = { s with rdata := t.rdata, draws := t.draws } := by
  obtain hout | ⟨r, href⟩ | ⟨off, hin⟩ := hostRead_cases addr size s.rst
  · rw [hout s rfl] at h
    cases h
    rfl
  · rw [href s rfl] at h
    cases h
  · rw [hin s rfl] at h
    obtain ⟨w, hw⟩ | ⟨_, hw⟩ | ⟨e, hw⟩ := busRead_cases s off <;> rw [hw] at h <;> cases h <;> rfl

/-- A read repeated while BUSY = 0 changes nothing more, not even the word read (R48). -/
theorem hostRead_idle_again {s t : State} {addr : Nat} {size : Size} (hb : s.busy = false)
    (h : s.hostRead addr size = .next t) (rest : List Event) :
    State.hostRead { t with inputs := rest } addr size = .next { t with inputs := rest } := by
  obtain hout | ⟨r, href⟩ | ⟨off, hin⟩ := hostRead_cases addr size s.rst
  · rw [hout s rfl] at h
    cases h
    exact hout _ rfl
  · rw [href s rfl] at h
    cases h
  · rw [hin s rfl] at h
    obtain ⟨w, hw⟩ | ⟨e, hw⟩ := busRead_idle off hb
    · cases (hw s.rdata s.inputs).symm.trans h
      exact (hin { s with rdata := w, inputs := rest } rfl).trans (hw w rest)
    · rw [hw] at h
      cases h

/-! ### The step over an access -/

theorem afterInput_cons {s : State} {e : Event} {rest : List Event} (h : s.inputs = e :: rest) :
    afterInput s = { s with inputs := rest } := by
  rw [afterInput, h, List.tail_cons]

/-- A step over a write in the window that answers a next state performed the write. -/
theorem step_hostWr_next {s t : State} {off : Nat} {w : Word} {rest : List Event} (h : s.inputs = hostWr off w :: rest)
    (ho : off < 4096) (ht : step s = .next t) : t = State.busWrite { s with inputs := rest } off w := by
  have hstep := ht
  rw [step_cons h] at hstep
  simp only [State.act, hostWr, State.hostWrite, busOffset_base off ho] at hstep
  split at hstep
  · cases hstep
  · cases hstep
    rfl

/-- An idle core without a record takes any word written to CMD (R140). -/
theorem step_cmdWrite_accepted {s : State} {w : Word} {rest : List Event} (h : s.inputs = hostWr 0x008 w :: rest)
    (hr : s.rst = false) (hb : s.busy = false) (he : s.err = false) :
    step s = .next { s with inputs := rest, latch := w, busy := true } := by
  rw [step_hostWr h hr (by decide) (by decide)]
  simp [State.busWrite, State.offer, hb, he]

/-- The completion of a NOP in flight is its success and nothing else (R144). -/
theorem step_nop_completion {s : State} (h : CompletionNext s) (hl : s.latch = 0#32) :
    step s = .next (afterInput s).succeed := by
  have hd : decode (afterInput s).latch = .command .nop := by
    rw [show (afterInput s).latch = 0#32 from hl]
    decide
  rw [step_completion h]
  simp [State.complete, hd, exec, execNop]

/-! ### The statements -/

/-- Settles O48: the map names the register or entry at the offset; idle, the access is its read or its store, and
while a command is in flight the write is only a recorded error. -/
theorem fieldWritesAreReduced : Obligations.FieldWritesAreReduced := by
  refine ⟨fun s off rest hin hr hb => ⟨fun i hoff => ?_, fun b k v hoff hv => ?_⟩, fun s off w rest hin hr =>
    ⟨fun hb i hoff => ?_, fun hb b k hoff => ?_, fun hb ha hoff => ?_⟩⟩
  · have hi := i.isLt
    exact ⟨_, (step_hostRd hin hr (by omega) (by omega)).trans (busRead_field_idle (locate_field hoff) hb), rfl⟩
  · have hk := k.isLt
    exact ⟨_, (step_hostRd hin hr (by omega) (by omega)).trans (busRead_entry_idle (locate_entry hoff) hb hv), rfl⟩
  · have hi := i.isLt
    rw [step_hostWr hin hr (by omega) (by omega), ← afterInput_cons hin,
      busWrite_field_idle (s := afterInput s) w (locate_field hoff) hb]
    refine ⟨_, rfl, ?_, fun j hj => ?_, fun b k => ?_, ⟨rfl, rfl, rfl⟩, ⟨rfl, rfl, rfl, rfl, rfl⟩, rfl, hb⟩
    · rw [State.getF_setF, if_pos rfl, busOperand_toNat]
    · rw [State.getF_setF, if_neg hj]
      rfl
    · rw [State.entry_setF]
      rfl
  · have hk := k.isLt
    rw [step_hostWr hin hr (by omega) (by omega), ← afterInput_cons hin,
      busWrite_entry_idle (s := afterInput s) w (locate_entry hoff) hb]
    refine ⟨_, busOperand w, rfl, ?_, busOperand_toNat w, fun b' k' hne => ?_, fun i => ?_, ⟨?_, ?_, ?_⟩,
      ⟨?_, ?_, ?_, ?_, ?_⟩, ?_, ?_⟩
    · rw [State.entry_setEntry, if_pos ⟨rfl, rfl⟩]
    · rw [State.entry_setEntry, if_neg hne]
      rfl
    · rw [State.getF_setEntry]
      rfl
    all_goals simp [afterInput, hb]
  · have hl := locate_fieldTyped (off := off) (by omega)
    rw [step_hostWr hin hr (by omega) ha, ← afterInput_cons hin,
      busWrite_fieldTyped_busy (s := afterInput s) w hl hb]
    rfl

/-- Settles O50: no read changes the core or, repeated while idle, its answer; a field-typed write repeated finds its
own result; and a NOP written to CMD is accepted again once the first has completed. -/
theorem readsHaveNoSideEffect : Obligations.ReadsHaveNoSideEffect := by
  refine ⟨fun s t addr size rest hin ht => ?_, fun s t u addr rest hin hb ht hu => ?_,
    fun s t u off w rest hin ho hrange ht hu => ?_, fun s w rest hin hr hb he hw => ?_⟩
  · rw [step_cons hin] at ht
    exact hostRead_next ht
  · rw [step_cons hin] at ht
    have htin : t.inputs = .read addr .word :: rest := by rw [hostRead_next ht]
    have hagain : step t = .next { t with inputs := rest } := by
      rw [step_cons htin]
      exact hostRead_idle_again (s := { s with inputs := .read addr .word :: rest }) hb ht rest
    rw [hagain] at hu
    cases hu
    rfl
  · have ht' := step_hostWr_next hin ho ht
    have htin : t.inputs = hostWr off w :: rest := by rw [ht', busWrite_inputs]
    have hu' : u = { t with inputs := rest } := by
      rw [step_hostWr_next htin ho hu, ht', busWrite_fieldTyped_again _ w rest (locate_fieldTyped hrange)]
    subst hu'
    exact ⟨fun _ => rfl, fun b _ => by cases b <;> rfl, rfl, rfl, rfl⟩
  · subst hw
    exact ⟨_, _, _, step_cmdWrite_accepted hin hr hb he, step_nop_completion ⟨hr, rfl, .inr rfl⟩ rfl,
      step_cmdWrite_accepted rfl hr rfl he, rfl, rfl⟩

end Sys2Proof.Machine
end

section
/-! PROOFS. The family of 30_encoding.md: the decoder against the opcode map (R66), and which words are illegal and what
completing one does (R67). -/

namespace Sys2Proof

/-! ### Reserved opcodes, illegal words and the NOP word -/

/-- The 46 reserved opcodes of R67 are the gaps of the map. -/
theorem opcodeMap_op_not_reserved : ∀ r ∈ opcodeMap,
    r.op.toNat ∉ List.range' 0x09 7 ++ List.range' 0x13 5 ++ List.range' 0x1D 34 := by decide

/-- R67's two kinds of illegal word, and no other. -/
theorem decode_illegal_iff (w : Word) :
    ((∀ r ∈ opcodeMap, opcodeOf w ≠ r.op) ∨ ∃ r ∈ opcodeMap, opcodeOf w = r.op ∧ w &&& r.mask ≠ r.pattern) ↔
      ∃ why, decode w = .illegal why := by
  constructor
  · rintro (hres | ⟨r, hr, hop, hbit⟩)
    · exact ⟨_, decode_of_reserved hres⟩
    · exact ⟨_, by rw [decode_of_opcode hr hop, if_neg hbit]⟩
  · rintro ⟨why, hwhy⟩
    obtain ⟨r, -, -, -, hd⟩ | ⟨r, hr, hbit, hop, -⟩ | ⟨hres, -⟩ := decode_cases w
    · rw [hd] at hwhy
      cases hwhy
    · exact .inr ⟨r, hr, hop, hbit⟩
    · exact .inl hres

/-- The one row that builds a NOP is that of the word 0, under the full mask (R65). -/
theorem opcodeMap_nop_row {r : Row} (hr : r ∈ opcodeMap) {w : Word} (h : r.build w = .nop) :
    r.mask = BitVec.allOnes 32 ∧ r.pattern = 0#32 := by
  simp only [opcodeMap, List.mem_cons, List.not_mem_nil, or_false] at hr
  rcases hr with rfl | rfl | rfl | rfl | rfl | rfl | rfl | rfl | rfl | rfl | rfl | rfl | rfl | rfl | rfl | rfl | rfl | rfl
  · exact ⟨rfl, rfl⟩
  all_goals cases h

theorem decode_nop_iff (w : Word) : decode w = .command .nop ↔ w = 0#32 := by
  constructor
  · intro h
    obtain ⟨r, hr, hmatch, -, hd⟩ | ⟨r, -, -, -, hd⟩ | ⟨-, hd⟩ := decode_cases w <;> rw [hd] at h
    · obtain ⟨hmask, hpat⟩ := opcodeMap_nop_row hr (Decoded.command.inj h)
      rwa [hmask, hpat, BitVec.and_allOnes] at hmatch
    · cases h
    · cases h
  · rintro rfl
    decide

/-! ### The statements -/

/-- Settles O4: a matching word has its row's opcode, which no other row has; a word that matches no row has a reserved
opcode or a reserved bit. -/
theorem decodingFollowsOpcodeMap : Obligations.DecodingFollowsOpcodeMap := by
  refine fun w => ⟨fun r hr => decode_of_match hr, fun hnone => ?_⟩
  obtain ⟨r, hr, hmatch, -, -⟩ | ⟨r, -, -, -, hd⟩ | ⟨-, hd⟩ := decode_cases w
  · exact absurd hmatch (hnone r hr)
  · exact ⟨_, hd⟩
  · exact ⟨_, hd⟩

end Sys2Proof

namespace Sys2Proof.Machine

/-- The completion of an illegal word raises ILLEGAL_COMMAND with the word's opcode (R67). -/
theorem complete_of_illegal {s : State} {why : Illegal} (h : decode s.latch = .illegal why) :
    s.complete = s.raise .illegalCommand (opcodeOf s.latch) := by
  unfold State.complete
  rw [h]

/-- Settles O5: no row has a reserved opcode, an illegal word's completion is a raise, and only the word 0 selects the
NOP row. -/
theorem illegalWordsRaiseIllegalCommand : Obligations.IllegalWordsRaiseIllegalCommand := by
  refine ⟨fun w hw => decode_of_reserved fun r hr hop => ?_, rfl, decode_illegal_iff, fun s why hill => ?_,
    decode_nop_iff⟩
  · exact opcodeMap_op_not_reserved r hr (hop ▸ hw)
  · rw [complete_of_illegal hill]
    exact raise_next s .illegalCommand (opcodeOf s.latch)

end Sys2Proof.Machine
end

section
/-! PROOFS. The family of 40_field_arithmetic.md: the result and the frame of MADD, MSUB, MMUL, MINV, MPOW and MPOWI
(R84-R92), and the laws of the residues modulo 257 they inherit. -/

namespace Sys2Proof.Machine

/-! ### The row of a command (R65, R67) -/

/-- The row the map holds for an opcode says all that the words of that opcode mean. -/
theorem rowOf_of_find {op : Opcode} {pattern mask : Word} {build : Word → Instr}
    (h : opcodeMap.find? (fun r => r.op == op) = some ⟨op, pattern, mask, build⟩) :
    RowOf op pattern mask build := by
  have hr := List.mem_of_find?_eq_some h
  refine ⟨fun w => decode_of_match hr, fun w s hop hbit hlatch => ?_⟩
  have hd : decode s.latch = .illegal .reservedBit := by rw [hlatch, decode_of_opcode hr hop, if_neg hbit]
  rw [complete_of_illegal hd, hlatch, hop]
  exact raise_next s .illegalCommand op

/-! ### The result of a command, as a number -/

/-- A command that ends with a number of nine bits leaves that number in its register. -/
theorem finish_value (s : State) (rd : Reg) {v : Nat} (hv : v < 512) :
    ∃ t, s.finish rd (toElem v) = .next t ∧ (t.getF rd).toNat = v ∧ WroteOnlyF rd s t := by
  obtain ⟨t, ht, hval, hframe⟩ := finish_next s rd (toElem v)
  exact ⟨t, ht, by rw [hval, toElem_toNat hv], hframe⟩

theorem exec_madd (rd rs1 rs2 : Reg) (s : State) :
    exec (.madd rd rs1 rs2) s = s.finish rd (toElem ((s.num rs1 + s.num rs2) % 257)) := by
  rw [← modP_natCast, Nat.cast_add]
  rfl

theorem exec_msub (rd rs1 rs2 : Reg) (s : State) :
    exec (.msub rd rs1 rs2) s = s.finish rd (toElem (modP ((s.num rs1 : Int) - s.num rs2))) := rfl

theorem exec_mmul (rd rs1 rs2 : Reg) (s : State) :
    exec (.mmul rd rs1 rs2) s = s.finish rd (toElem (s.num rs1 * s.num rs2 % 257)) := by
  rw [← modP_natCast, Nat.cast_mul]
  rfl

theorem exec_minv_zero {rs1 : Reg} {s : State} (h : s.num rs1 = 0) (rd : Reg) :
    exec (.minv rd rs1) s = s.raise .divisionByZero 0x06#6 := if_pos h

theorem exec_minv_of_pos {rs1 : Reg} {s : State} (h : 1 ≤ s.num rs1) (rd : Reg) :
    exec (.minv rd rs1) s = s.finish rd (toElem (inv (s.num rs1))) := if_neg (by omega)

theorem exec_mpow (rd rs1 rs2 : Reg) (s : State) :
    exec (.mpow rd rs1 rs2) s = s.finish rd (toElem (s.num rs1 ^ s.num rs2 % 257)) := by
  rw [← powmod_eq]
  rfl

theorem exec_mpowi (rd rs1 : Reg) (e : Nat) (s : State) :
    exec (.mpowi rd rs1 e) s = s.finish rd (toElem (s.num rs1 ^ e % 257)) := by
  rw [← powmod_eq]
  rfl

theorem exec_mmul_next (rd rs1 rs2 : Reg) (s : State) : ∃ t, exec (.mmul rd rs1 rs2) s = .next t ∧
    (t.getF rd).toNat = s.num rs1 * s.num rs2 % 257 ∧ WroteOnlyF rd s t := by
  rw [exec_mmul]
  exact finish_value s rd (by omega)

theorem exec_minv_next {rs1 : Reg} {s : State} (h1 : 1 ≤ s.num rs1) (h2 : s.num rs1 ≤ 256) (rd : Reg) :
    ∃ t, exec (.minv rd rs1) s = .next t ∧ (t.getF rd).toNat = inv (s.num rs1) ∧ WroteOnlyF rd s t := by
  obtain ⟨-, hle, -⟩ := inv_spec h1 h2
  rw [exec_minv_of_pos h1]
  exact finish_value s rd (by omega)

theorem exec_mpowi_next (rd rs1 : Reg) (e : Nat) (s : State) : ∃ t, exec (.mpowi rd rs1 e) s = .next t ∧
    (t.getF rd).toNat = s.num rs1 ^ e % 257 ∧ WroteOnlyF rd s t := by
  rw [exec_mpowi]
  exact finish_value s rd (by omega)

/-- A register other than the written one reads the same number after the command. -/
theorem num_of_wroteOnlyF {rd : Reg} {s t : State} (h : WroteOnlyF rd s t) {r : Reg} (hr : r ≠ rd) :
    t.num r = s.num r := congrArg BitVec.toNat (h.1 r hr)

/-! ### Residues modulo 257 -/

/-- A product of canonical numbers is 0 only with a factor 0, since 257 is prime (R87). -/
theorem mul_mod_eq_zero_iff {a b : Nat} (ha : a ≤ 256) (hb : b ≤ 256) : a * b % 257 = 0 ↔ a = 0 ∨ b = 0 := by
  rw [← Nat.dvd_iff_mod_eq_zero, prime_P.dvd_mul]
  omega

/-- A power of a canonical number is 0 only for base 0 and an exponent of at least 1 (R91). -/
theorem pow_mod_eq_zero_iff {b : Nat} (hb : b ≤ 256) (e : Nat) : b ^ e % 257 = 0 ↔ b = 0 ∧ 1 ≤ e := by
  rw [← Nat.dvd_iff_mod_eq_zero]
  constructor
  · intro h
    have hdvd : 257 ∣ b := prime_P.dvd_of_dvd_pow h
    have he : e ≠ 0 := by
      rintro rfl
      rw [pow_zero] at h
      omega
    omega
  · rintro ⟨rfl, he⟩
    rw [zero_pow (by omega)]
    exact dvd_zero 257

/-- Fermat's little theorem for the modulus 257 (R90). -/
theorem pow_256_mod_eq_one {a : Nat} (h1 : 1 ≤ a) (h2 : a ≤ 256) : a ^ 256 % 257 = 1 := by
  have hcoprime : Nat.Coprime a 257 := (Nat.coprime_of_lt_prime (by omega) (by omega) prime_P).symm
  have h := Nat.ModEq.pow_totient hcoprime
  rwa [Nat.totient_prime prime_P] at h

/-- A multiple of 256 in the exponent adds nothing for a nonzero base. -/
theorem pow_mod_exponent {a : Nat} (h1 : 1 ≤ a) (h2 : a ≤ 256) (e : Nat) : a ^ e % 257 = a ^ (e % 256) % 257 := by
  calc a ^ e % 257 = (a ^ 256) ^ (e / 256) * a ^ (e % 256) % 257 := by rw [← pow_mul, ← pow_add, Nat.div_add_mod]
    _ = a ^ (e % 256) % 257 := by
      rw [Nat.mul_mod, Nat.pow_mod, pow_256_mod_eq_one h1 h2, one_pow, ← Nat.mul_mod, one_mul]

/-- 256 is -1 modulo 257, so its powers alternate (R92). -/
theorem base_256_pow_mod (e : Nat) : 256 ^ e % 257 = if e % 2 = 0 then 1 else 256 := by
  induction e with
  | zero => rfl
  | succ e ih =>
    rw [pow_succ, Nat.mul_mod, ih]
    split <;> split <;> omega

theorem inv_inv_self {a : Nat} (h1 : 1 ≤ a) (h2 : a ≤ 256) : inv (inv a) = a := by
  obtain ⟨hpos, hle, hmul⟩ := inv_spec h1 h2
  exact (inv_unique hpos hle h2 (by rwa [mul_comm])).symm

/-! ### The statements -/

/-- Settles O6: the result of MADD is a residue, and a finished command wrote nothing else. -/
theorem maddAddsModP : Obligations.MaddAddsModP := by
  refine ⟨rowOf_of_find rfl, fun rd rs1 rs2 s => ?_⟩
  rw [exec_madd]
  exact finish_value s rd (by omega)

/-- Settles O7: the residue of the integer difference, which canonical operands put between -256 and 256. -/
theorem msubSubtractsModP : Obligations.MsubSubtractsModP := by
  refine ⟨rowOf_of_find rfl, fun rd rs1 rs2 s => ?_⟩
  have hlt := modP_lt ((s.num rs1 : Int) - s.num rs2)
  have hres := modP_cast_int ((s.num rs1 : Int) - s.num rs2)
  obtain ⟨t, ht, hval, hframe⟩ := finish_value s rd (v := modP ((s.num rs1 : Int) - s.num rs2)) (by omega)
  refine ⟨t, (exec_msub rd rs1 rs2 s).trans ht, by rw [hval, hres], fun h1 h2 => ?_, hframe⟩
  have h1' : s.num rs1 ≤ 256 := h1
  have h2' : s.num rs2 ≤ 256 := h2
  split <;> omega

/-- Settles O8: the result of MMUL is a residue, and a finished command wrote nothing else. -/
theorem mmulMultipliesModP : Obligations.MmulMultipliesModP :=
  ⟨rowOf_of_find rfl, exec_mmul_next⟩

/-- Settles O9: the operand 0 raises, and for any other the search gives the inverse, unique in 1..256. -/
theorem minvInvertsOrRaises : Obligations.MinvInvertsOrRaises := by
  refine ⟨rowOf_of_find rfl, fun rd rs1 s => ⟨fun h0 => ?_, fun h1 h2 => ?_⟩⟩
  · rw [exec_minv_zero h0]
    exact raise_next s .divisionByZero 0x06#6
  · obtain ⟨t, ht, hval, hframe⟩ := exec_minv_next h1 h2 rd
    obtain ⟨hpos, hle, hmul⟩ := inv_spec h1 h2
    rw [← hval] at hpos hle hmul
    exact ⟨t, ht, hpos, hle, hmul, fun v _ hv hmulv => by rw [hval, inv_unique h1 h2 hv hmulv], hframe⟩

/-- Settles O10: the power is a residue, and the exponent 256 is Fermat's little theorem. -/
theorem mpowRaisesToRegister : Obligations.MpowRaisesToRegister := by
  refine ⟨rowOf_of_find rfl, fun rd rs1 rs2 s => ?_⟩
  obtain ⟨t, ht, hval, hframe⟩ := finish_value s rd (v := s.num rs1 ^ s.num rs2 % 257) (by omega)
  refine ⟨t, (exec_mpow rd rs1 rs2 s).trans ht, hval, fun h1 h2 he => ?_, hframe⟩
  rw [hval, he, pow_256_mod_eq_one h1 h2]

/-- Settles O11: the power is a residue; base 3 has its exponent reduced to 255, and base 256 is -1. -/
theorem mpowiRaisesToImmediate : Obligations.MpowiRaisesToImmediate := by
  refine ⟨rowOf_of_find rfl, fun rd rs1 e s => ?_⟩
  obtain ⟨t, ht, hval, hframe⟩ := exec_mpowi_next rd rs1 e s
  refine ⟨t, ht, hval, fun hb he => ?_, fun hb => ?_, hframe⟩
  · rw [hval, hb, he, pow_mod_exponent (by decide) (by decide)]
    decide
  · rw [hval, hb, base_256_pow_mod]

/-- Settles O13: the inverse is again in 1..256, so MINV inverts it back; and the result is a function of the
operand. -/
theorem inversionIsInvolution : Obligations.InversionIsInvolution := by
  refine ⟨fun r1 r2 r3 rs s h1 h2 => ?_, fun rd rs rd' rs' s s' t h1 hsame ht => ?_⟩
  · obtain ⟨hpos, hle, hmul⟩ := inv_spec h1 h2
    obtain ⟨t, ht, hval, hframe⟩ := exec_minv_next h1 h2 r1
    have hnum : t.num r1 = inv (s.num rs) := hval
    rw [← hnum] at hpos hle hmul
    obtain ⟨u, hu, hvalu, -⟩ := exec_minv_next hpos hle r2
    refine ⟨t, u, ht, hu, BitVec.eq_of_toNat_eq ?_, fun hne => ?_⟩
    · rw [hvalu, hnum, inv_inv_self h1 h2]
      rfl
    · obtain ⟨v, hv, hvalv, -⟩ := exec_mmul_next r3 rs r1 t
      exact ⟨v, hv, by rw [hvalv, num_of_wroteOnlyF hframe hne.symm, hmul]⟩
  · have hnum : s.num rs = s'.num rs' := congrArg BitVec.toNat hsame
    obtain ⟨u, hu, hvalu, -⟩ := finish_next s rd (toElem (inv (s.num rs)))
    obtain ⟨t', ht', hval', -⟩ := finish_next s' rd' (toElem (inv (s'.num rs')))
    rw [exec_minv_of_pos h1, hu] at ht
    cases ht
    exact ⟨t', (exec_minv_of_pos (hnum ▸ h1) rd').trans ht', by rw [hval', hvalu, hnum]⟩

/-- Settles O14: the laws of the product of residues modulo the prime 257, with 256 as -1. -/
theorem multiplicationLaws : Obligations.MultiplicationLaws := by
  intro rd rs1 rs2 s h1 h2
  obtain ⟨t, ht, hval, -⟩ := exec_mmul_next rd rs1 rs2 s
  have hcomm : exec (.mmul rd rs2 rs1) s = exec (.mmul rd rs1 rs2) s := by
    rw [exec_mmul, exec_mmul, mul_comm]
  refine ⟨t, ht, hcomm.trans ht, ?_, fun hneg => ?_⟩
  · rw [hval]
    exact mul_mod_eq_zero_iff h1 h2
  · rw [hval, hneg]
    omega

/-- Settles O15: the laws of powers, reduced modulo the prime 257; the two forms share one meaning. -/
theorem exponentiationLaws : Obligations.ExponentiationLaws := by
  intro rd rs1 s hcanon
  refine ⟨?_, fun e1 e2 => ?_, fun e => ?_, fun rs2 => ?_⟩
  · obtain ⟨t, ht, hval, -⟩ := exec_mpowi_next rd rs1 1 s
    refine ⟨t, ht, BitVec.eq_of_toNat_eq ?_⟩
    rw [hval, pow_one]
    exact Nat.mod_eq_of_lt (Nat.lt_succ_of_le hcanon)
  · obtain ⟨t1, ht1, hval1, -⟩ := exec_mpowi_next rd rs1 e1 s
    obtain ⟨t2, ht2, hval2, -⟩ := exec_mpowi_next rd rs1 e2 s
    obtain ⟨t, ht, hval, -⟩ := exec_mpowi_next rd rs1 (e1 + e2) s
    exact ⟨t1, t2, t, ht1, ht2, ht, by rw [hval, hval1, hval2, pow_add, Nat.mul_mod]⟩
  · obtain ⟨t, ht, hval, -⟩ := exec_mpowi_next rd rs1 e s
    exact ⟨t, ht, by rw [hval]; exact pow_mod_eq_zero_iff hcanon e⟩
  · rw [exec_mpow, exec_mpowi]

end Sys2Proof.Machine
end

section
/-! PROOFS. The family of 41_polynomial.md: the coefficients PEVAL and SPLIT read (R101), the value they evaluate (R16),
and what each command writes (R100, R102, R103). -/

namespace Sys2Proof.Machine

/-! ### The coefficients C[0..t-1] (R101) -/

/-- The coefficients C[0..t-1] as numbers, in entry order. -/
def coeffs (s : State) (t : Nat) : List Nat := (List.range t).map fun k => entryNum s .c k

@[simp] theorem length_coeffs (s : State) (t : Nat) : (coeffs s t).length = t := by
  simp [coeffs]

theorem getD_coeffs (s : State) {t k : Nat} (h : k < t) : (coeffs s t).getD k 0 = entryNum s .c k := by
  simp [coeffs, h]

/-- `coeffs` depends on nothing of the state but C[0..t-1]. -/
theorem coeffs_congr {s s' : State} {t : Nat} (h : ∀ k < t, s'.entry .c k = s.entry .c k) :
    coeffs s' t = coeffs s t := by
  refine List.map_congr_left fun k hk => ?_
  simp only [entryNum, h k (List.mem_range.mp hk)]

theorem coeffsWritten_congr {s s' : State} {t : Nat} (h : ∀ k < t, s'.entry .c k = s.entry .c k)
    (hw : CoeffsWritten s t) : CoeffsWritten s' t := fun k hk => by
  rw [h k hk]
  exact hw k hk

theorem readRun_coeffs {s : State} {t : Nat} (hw : CoeffsWritten s t) : s.readRun .c 0 t = .ok (coeffs s t) := by
  have h := readRun_ok s .c 0 t
  simp only [Nat.zero_add] at h
  exact h hw

theorem readRun_coeffs_fault {s : State} {t : Nat} (hw : ¬ CoeffsWritten s t) :
    ∃ k < t, s.entry .c k = none ∧ s.readRun .c 0 t = .error (.unwrittenEntry .c k) := by
  have h := readRun_fault s .c 0 t
  simp only [Nat.zero_add] at h
  exact h hw

/-! ### The polynomial's value (R16) -/

theorem polyAt_lt (s : State) (t x : Nat) : polyAt s t x < 257 := Nat.mod_lt _ (by decide)

/-- On canonical coefficients `horner` and R16's sum are the same residue, and both lie below 257. -/
theorem horner_coeffs {s : State} {t : Nat} (x : Nat) (h : ∀ k < t, entryNum s .c k ≤ 256) :
    horner (coeffs s t) x = polyAt s t x := by
  have hle : horner (coeffs s t) x ≤ 256 := by
    refine horner_le x fun c hc => ?_
    obtain ⟨k, hk, rfl⟩ := List.mem_map.mp hc
    exact h k (List.mem_range.mp hk)
  refine eq_of_cast_zmod (Nat.lt_succ_of_le hle) (polyAt_lt s t x) ?_
  rw [horner_cast_zmod, length_coeffs, polyAt, ZMod.natCast_mod, Nat.cast_sum]
  refine Finset.sum_congr rfl fun k hk => ?_
  rw [getD_coeffs s (Finset.mem_range.mp hk), Nat.cast_mul, Nat.cast_pow]

/-! ### PEVAL (R100) -/

theorem exec_peval_zero (rd rs1 : Reg) (s : State) :
    exec (.peval rd rs1 0) s = s.raise .invalidParameters 0x10#6 := rfl

theorem exec_peval_written {s : State} {t : Nat} (h1 : 1 ≤ t) (hw : CoeffsWritten s t) (rd rs1 : Reg) :
    exec (.peval rd rs1 t) s = s.finish rd (toElem (horner (coeffs s t) (s.num rs1))) := by
  change execPeval rd rs1 t s = _
  rw [execPeval, if_neg (by omega), readRun_coeffs hw]

theorem exec_peval_fault {s : State} {t : Nat} (h1 : 1 ≤ t) (hw : ¬ CoeffsWritten s t) (rd rs1 : Reg) :
    ∃ k < t, s.entry .c k = none ∧ exec (.peval rd rs1 t) s = .fault (.unwrittenEntry .c k) := by
  obtain ⟨k, hk, hnone, hrun⟩ := readRun_coeffs_fault hw
  refine ⟨k, hk, hnone, ?_⟩
  change execPeval rd rs1 t s = _
  rw [execPeval, if_neg (by omega), hrun]

/-! ### SPLIT (R102, R103) -/

/-- `s` with SPLIT's `n` pairs of the polynomial `cs` written, before the command's end. -/
def withShares (s : State) (cs : List Nat) (n : Nat) : State :=
  { s with bufX := Memory.writeFrom 0 (splitXs n) s.bufX, bufY := Memory.writeFrom 0 (splitYs cs n) s.bufY }

theorem entry_c_withShares (s : State) (cs : List Nat) (n k : Nat) :
    (withShares s cs n).entry .c k = s.entry .c k := rfl

/-- A run of `n` values given by their index, written from entry 0. -/
theorem read_writeFrom_range (f : Nat → Elem) (n k : Nat) (m : Memory) :
    Memory.read k (Memory.writeFrom 0 ((List.range n).map f) m) = if k < n then some (f k) else Memory.read k m := by
  rw [Memory.read_writeFrom]
  by_cases hk : k < n <;> simp [hk]

theorem entry_x_withShares (s : State) (cs : List Nat) (n k : Nat) :
    (withShares s cs n).entry .x k = if k < n then some (toElem (k + 1)) else s.entry .x k :=
  read_writeFrom_range _ n k s.bufX

theorem entry_y_withShares (s : State) (cs : List Nat) (n k : Nat) :
    (withShares s cs n).entry .y k = if k < n then some (toElem (horner cs (k + 1))) else s.entry .y k :=
  read_writeFrom_range _ n k s.bufY

theorem exec_split_rejected {n t : Nat} (h : t < 1 ∨ t > n ∨ n > 255) (s : State) :
    exec (.split n t) s = s.raise .invalidParameters 0x11#6 := if_pos h

theorem split_not_rejected {n t : Nat} (h : 1 ≤ t ∧ t ≤ n ∧ n ≤ 255) : ¬ (t < 1 ∨ t > n ∨ n > Config.NMAX) := by
  simp only [Config.NMAX]
  omega

theorem exec_split_written {s : State} {n t : Nat} (h : 1 ≤ t ∧ t ≤ n ∧ n ≤ 255) (hw : CoeffsWritten s t) :
    exec (.split n t) s = .next (withShares s (coeffs s t) n).succeed := by
  change execSplit n t s = _
  rw [execSplit, if_neg (split_not_rejected h), readRun_coeffs hw]
  rfl

theorem exec_split_fault {s : State} {n t : Nat} (h : 1 ≤ t ∧ t ≤ n ∧ n ≤ 255) (hw : ¬ CoeffsWritten s t) :
    ∃ k < t, s.entry .c k = none ∧ exec (.split n t) s = .fault (.unwrittenEntry .c k) := by
  obtain ⟨k, hk, hnone, hrun⟩ := readRun_coeffs_fault hw
  refine ⟨k, hk, hnone, ?_⟩
  change execSplit n t s = _
  rw [execSplit, if_neg (split_not_rejected h), hrun]

/-! ### The statements -/

/-- Settles O18: t = 0 raises; written coefficients give `horner`, which is R16's sum; an unwritten one stops the
read. -/
theorem pevalEvaluatesPolynomial : Obligations.PevalEvaluatesPolynomial := by
  refine ⟨rowOf_of_find rfl, fun rd rs1 t s => ⟨?_, fun h1 hw hcanon => ?_, fun h1 hw => exec_peval_fault h1 hw rd rs1⟩⟩
  · rintro rfl
    rw [exec_peval_zero]
    exact raise_next s .invalidParameters 0x10#6
  · have hlt := polyAt_lt s t (s.num rs1)
    rw [exec_peval_written h1 hw, horner_coeffs _ hcanon]
    exact finish_value s rd (by omega)

/-- Settles O19: a failed check raises; otherwise entry k < n of X and Y is k + 1 and the polynomial there, and SPLIT
writes no other entry. -/
theorem splitWritesShares : Obligations.SplitWritesShares := by
  refine ⟨rowOf_of_find rfl, fun n t s => ⟨fun hbad => ?_, fun h1 htn hn hw hcanon => ?_, fun h1 htn hn hw =>
    exec_split_fault ⟨h1, htn, hn⟩ hw⟩⟩
  · rw [exec_split_rejected hbad]
    exact raise_next s .invalidParameters 0x11#6
  · refine ⟨_, exec_split_written ⟨h1, htn, hn⟩ hw, fun i hi hin => ?_, fun k hk => ?_, fun k => ?_, fun _ => rfl,
      ⟨rfl, rfl, rfl⟩, ⟨rfl, rfl, rfl, rfl, rfl⟩, ⟨rfl, rfl⟩⟩
    · have hlt : i - 1 < n := by omega
      rw [State.entry_succeed, State.entry_succeed, entry_x_withShares, entry_y_withShares, if_pos hlt, if_pos hlt,
        Nat.sub_add_cancel hi, horner_coeffs i hcanon]
      exact ⟨rfl, rfl⟩
    · rw [State.entry_succeed, State.entry_succeed, entry_x_withShares, entry_y_withShares, if_neg (by omega),
        if_neg (by omega)]
      exact ⟨rfl, rfl⟩
    · rw [State.entry_succeed, entry_c_withShares]

/-- Settles O20: both commands' results are functions of `coeffs` and the registers, and their faults come from the
read of C[0..t-1]. -/
theorem coefficientsBeyondThresholdUnread : Obligations.CoefficientsBeyondThresholdUnread := by
  intro s s' t h1 hF hC
  have hcs : coeffs s' t = coeffs s t := coeffs_congr hC
  refine ⟨fun rd rs1 => ⟨fun hw => ?_, fun hw => exec_peval_fault h1 hw rd rs1⟩, fun n htn hn => ⟨fun hw => ?_,
    fun hw => exec_split_fault ⟨h1, htn, hn⟩ hw⟩⟩
  · have hx : s'.num rs1 = s.num rs1 := congrArg BitVec.toNat (hF rs1)
    have hw' := coeffsWritten_congr hC hw
    obtain ⟨u, hu, hval, -⟩ := finish_next s rd (toElem (horner (coeffs s t) (s.num rs1)))
    obtain ⟨u', hu', hval', -⟩ := finish_next s' rd (toElem (horner (coeffs s' t) (s'.num rs1)))
    exact ⟨u, u', (exec_peval_written h1 hw rd rs1).trans hu, (exec_peval_written h1 hw' rd rs1).trans hu',
      by rw [hval', hval, hcs, hx]⟩
  · refine ⟨_, _, exec_split_written ⟨h1, htn, hn⟩ hw,
      exec_split_written ⟨h1, htn, hn⟩ (coeffsWritten_congr hC hw), fun k hk => ?_⟩
    simp only [State.entry_succeed, entry_x_withShares, entry_y_withShares, if_pos hk, hcs, and_self]

end Sys2Proof.Machine
end

section
/-! PROOFS. The family of 42_lagrange.md: the window LAGR0 reads (R115), its outcomes in the order of its checks (R110),
and R17's sum as the value at 0 of the polynomial through the window's pairs (R112, R113). -/

namespace Sys2Proof.Machine

/-! ### The window of a buffer -/

/-- The entries `base`..`base + count - 1` of a buffer as numbers, in entry order. -/
def windowNums (s : State) (b : Buf) (base count : Nat) : List Nat :=
  (List.range count).map fun j => entryNum s b (base + j)

@[simp] theorem length_windowNums (s : State) (b : Buf) (base count : Nat) :
    (windowNums s b base count).length = count := by
  simp [windowNums]

theorem getD_windowNums (s : State) (b : Buf) (base : Nat) {count j : Nat} (h : j < count) :
    (windowNums s b base count).getD j 0 = entryNum s b (base + j) := by
  simp [windowNums, h]

theorem nodup_windowNums_iff (s : State) (base count : Nat) :
    (windowNums s .x base count).Nodup ↔ DistinctXs s base count := by
  rw [windowNums, List.nodup_map_iff_inj_on List.nodup_range]
  simp only [List.mem_range, DistinctXs]

theorem windowNums_le {s : State} {b : Buf} {base count : Nat} (h : ∀ j < count, entryNum s b (base + j) ≤ 256) :
    ∀ v ∈ windowNums s b base count, v ≤ 256 := by
  intro v hv
  obtain ⟨j, hj, rfl⟩ := List.mem_map.mp hv
  exact h j (List.mem_range.mp hj)

/-- What `lagrange0` gives the pairs of a window. -/
def windowLagrange (s : State) (base count : Nat) : Nat :=
  lagrange0 (windowNums s .x base count) (windowNums s .y base count)

theorem windowLagrange_lt (s : State) (base count : Nat) : windowLagrange s base count < 257 := lagrange0_lt _ _

theorem windowLagrange_cast {s : State} {base count : Nat} (hd : DistinctXs s base count)
    (hx : ∀ j < count, entryNum s .x (base + j) ≤ 256) :
    ((windowLagrange s base count : Nat) : ZMod 257) = lagrangeSum s base count := by
  rw [windowLagrange, lagrange0_cast _ _ (by simp) (windowNums_le hx) ((nodup_windowNums_iff s base count).mpr hd),
    length_windowNums, lagrangeSum]
  have hget (b : Buf) {j : Nat} (hj : j ∈ Finset.range count) := getD_windowNums s b base (Finset.mem_range.mp hj)
  refine Finset.sum_congr rfl fun i hi => ?_
  rw [hget .x hi, hget .y hi]
  congr 2 <;> exact Finset.prod_congr rfl fun j hj => by rw [hget .x (Finset.mem_of_mem_erase hj)]

/-! ### The outcomes of LAGR0 -/

theorem exec_lagr0_empty (rd : Reg) (base : Nat) (s : State) :
    exec (.lagr0 rd base 0) s = s.raise .emptyInput 0x12#6 := rfl

theorem exec_lagr0_beyond {base count : Nat} (h1 : 1 ≤ count) (h2 : 256 < base + count) (rd : Reg) (s : State) :
    exec (.lagr0 rd base count) s = s.raise .invalidParameters 0x12#6 := by
  have hout : base + count > Config.NB := h2
  change execLagr0 rd base count s = _
  rw [execLagr0, if_neg (by omega), if_pos hout]

section
variable {s : State} {base count : Nat} (h1 : 1 ≤ count) (h2 : base + count ≤ 256)
include h1 h2

theorem exec_lagr0_written (hw : WindowWritten s base count) (rd : Reg) :
    exec (.lagr0 rd base count) s =
      if (windowNums s .x base count).Nodup then s.finish rd (toElem (windowLagrange s base count))
      else s.raise .invalidShareSet 0x12#6 := by
  have hin : ¬ base + count > Config.NB := Nat.not_lt.mpr h2
  change execLagr0 rd base count s = _
  rw [execLagr0, if_neg (by omega), if_neg hin, readRun_ok s .x base count fun j hj => (hw j hj).1,
    readRun_ok s .y base count fun j hj => (hw j hj).2]
  rfl

theorem exec_lagr0_duplicate (hw : WindowWritten s base count) (hd : ¬ DistinctXs s base count) (rd : Reg) :
    exec (.lagr0 rd base count) s = s.raise .invalidShareSet 0x12#6 := by
  rw [exec_lagr0_written h1 h2 hw, if_neg ((nodup_windowNums_iff s base count).not.mpr hd)]

/-- On distinct X values LAGR0 ends with the value of `lagrange0`, whatever the X and Y values are (R112). -/
theorem exec_lagr0_next (hw : WindowWritten s base count) (hd : DistinctXs s base count) (rd : Reg) :
    ∃ u, exec (.lagr0 rd base count) s = .next u ∧ (u.getF rd).toNat = windowLagrange s base count ∧
      WroteOnlyF rd s u := by
  have hlt := windowLagrange_lt s base count
  rw [exec_lagr0_written h1 h2 hw, if_pos ((nodup_windowNums_iff s base count).mpr hd)]
  exact finish_value s rd (by omega)

/-- The X run is read before the Y run, and the first entry never written stops the command (R115). -/
theorem exec_lagr0_fault (hw : ¬ WindowWritten s base count) (rd : Reg) :
    ∃ b, (b = .x ∨ b = .y) ∧ ∃ j < count, s.entry b (base + j) = none ∧
      exec (.lagr0 rd base count) s = .fault (.unwrittenEntry b (base + j)) := by
  have hin : ¬ base + count > Config.NB := Nat.not_lt.mpr h2
  change ∃ b, _ ∧ ∃ j < count, _ ∧ execLagr0 rd base count s = _
  rw [execLagr0, if_neg (by omega), if_neg hin]
  by_cases hx : ∀ j < count, s.entry .x (base + j) ≠ none
  · have hy : ¬ ∀ j < count, s.entry .y (base + j) ≠ none := fun hy => hw fun j hj => ⟨hx j hj, hy j hj⟩
    obtain ⟨j, hj, hnone, hrun⟩ := readRun_fault s .y base count hy
    exact ⟨.y, .inr rfl, j, hj, hnone, by rw [readRun_ok s .x base count hx, hrun]⟩
  · obtain ⟨j, hj, hnone, hrun⟩ := readRun_fault s .x base count hx
    exact ⟨.x, .inl rfl, j, hj, hnone, by rw [hrun]⟩

end

/-! ### R17's sum as the value at 0 of an interpolating polynomial -/

/-- An entry of a window as a residue modulo 257. -/
def windowResidue (s : State) (b : Buf) (base j : Nat) : ZMod 257 := (entryNum s b (base + j) : ZMod 257)

/-- R17's sum is Lagrange's polynomial through the window's pairs, at 0. -/
theorem lagrangeSum_eq_eval_interpolate [Fact (Nat.Prime 257)] (s : State) (base count : Nat) :
    lagrangeSum s base count = (Lagrange.interpolate (Finset.range count) (windowResidue s .x base)
      (windowResidue s .y base)).eval 0 := by
  rw [Lagrange.interpolate_apply, Polynomial.eval_finsetSum, lagrangeSum]
  refine Finset.sum_congr rfl fun i _ => ?_
  simp only [Lagrange.basis, Lagrange.basisDivisor, Polynomial.eval_mul, Polynomial.eval_prod, Polynomial.eval_sub,
    Polynomial.eval_C, Polynomial.eval_X, zero_sub, Finset.prod_mul_distrib, Finset.prod_inv_distrib, windowResidue]
  ring

/-- Distinct canonical X values are distinct residues. -/
theorem windowResidue_injOn {s : State} {base count : Nat} (hd : DistinctXs s base count)
    (hx : ∀ j < count, entryNum s .x (base + j) ≤ 256) :
    Set.InjOn (windowResidue s .x base) (Finset.range count) := by
  intro i hi j hj hij
  have hi' : i < count := Finset.mem_range.mp hi
  have hj' : j < count := Finset.mem_range.mp hj
  exact hd i hi' j hj' (eq_of_cast_zmod (Nat.lt_succ_of_le (hx i hi')) (Nat.lt_succ_of_le (hx j hj')) hij)

/-- The interpolating polynomial takes the value `y` at the node `x = 0` (R112). -/
theorem lagrangeSum_of_zero_x {s : State} {base count j : Nat} (hd : DistinctXs s base count)
    (hx : ∀ j < count, entryNum s .x (base + j) ≤ 256) (hj : j < count) (h0 : entryNum s .x (base + j) = 0) :
    lagrangeSum s base count = windowResidue s .y base j := by
  have : Fact (Nat.Prime 257) := ⟨prime_P⟩
  have hnode : windowResidue s .x base j = 0 := by rw [windowResidue, h0, Nat.cast_zero]
  rw [lagrangeSum_eq_eval_interpolate, ← hnode]
  exact Lagrange.eval_interpolate_at_node _ (windowResidue_injOn hd hx) (Finset.mem_range.mpr hj)

/-- The polynomial with the `t` coefficients `a 0`..`a (t - 1)`, over the residues modulo 257. -/
noncomputable def residuePoly (a : Nat → Nat) (t : Nat) : Polynomial (ZMod 257) :=
  ∑ k : Fin t, Polynomial.C (a k : ZMod 257) * Polynomial.X ^ (k : Nat)

theorem eval_residuePoly (a : Nat → Nat) (t : Nat) (x : ZMod 257) :
    (residuePoly a t).eval x = ∑ k ∈ Finset.range t, (a k : ZMod 257) * x ^ k := by
  simp only [residuePoly, Polynomial.eval_finsetSum, Polynomial.eval_mul, Polynomial.eval_C, Polynomial.eval_pow,
    Polynomial.eval_X]
  exact Fin.sum_univ_eq_sum_range (fun k => (a k : ZMod 257) * x ^ k) t

theorem eval_zero_residuePoly (a : Nat → Nat) {t : Nat} (ht : 1 ≤ t) :
    (residuePoly a t).eval 0 = (a 0 : ZMod 257) := by
  obtain ⟨t, rfl⟩ := Nat.exists_eq_add_of_le' ht
  rw [eval_residuePoly, Finset.sum_range_succ']
  simp

/-- At least `t` pairs of a polynomial of `t` coefficients interpolate to that polynomial (R113). -/
theorem lagrangeSum_of_poly {s : State} {base count t : Nat} {a : Nat → Nat} (ht : 1 ≤ t) (htc : t ≤ count)
    (hd : DistinctXs s base count) (hx : ∀ j < count, entryNum s .x (base + j) ≤ 256)
    (hy : ∀ j < count, entryNum s .y (base + j) = (∑ k ∈ Finset.range t, a k * entryNum s .x (base + j) ^ k) % 257) :
    lagrangeSum s base count = (a 0 : ZMod 257) := by
  have : Fact (Nat.Prime 257) := ⟨prime_P⟩
  have hdeg : (residuePoly a t).degree < (Finset.range count).card := by
    rw [Finset.card_range]
    exact (Polynomial.degree_sum_fin_lt fun k : Fin t => (a k : ZMod 257)).trans_le (by exact_mod_cast htc)
  have hval : ∀ j ∈ Finset.range count,
      (residuePoly a t).eval (windowResidue s .x base j) = windowResidue s .y base j := by
    intro j hj
    rw [eval_residuePoly, windowResidue, windowResidue, hy j (Finset.mem_range.mp hj), ZMod.natCast_mod]
    push_cast
    rfl
  rw [lagrangeSum_eq_eval_interpolate, ← Lagrange.eq_interpolate_of_eval_eq _ (windowResidue_injOn hd hx) hdeg hval,
    eval_zero_residuePoly a ht]

/-! ### The statements -/

/-- Settles O22: the checks raise in order; distinct X values end with `lagrange0`, which is R17's sum. -/
theorem lagr0InterpolatesAtZero : Obligations.Lagr0InterpolatesAtZero := by
  refine ⟨rowOf_of_find rfl, fun rd base count s => ⟨?_, fun h1 h2 => ?_, fun h1 h2 hw hd => ?_,
    fun h1 h2 hw hd hx => ?_⟩⟩
  · rintro rfl
    rw [exec_lagr0_empty]
    exact raise_next s .emptyInput 0x12#6
  · rw [exec_lagr0_beyond h1 h2]
    exact raise_next s .invalidParameters 0x12#6
  · rw [exec_lagr0_duplicate h1 h2 hw hd]
    exact raise_next s .invalidShareSet 0x12#6
  · obtain ⟨u, hu, hval, hframe⟩ := exec_lagr0_next h1 h2 hw hd rd
    have hlt := windowLagrange_lt s base count
    exact ⟨u, hu, by omega, by rw [hval, windowLagrange_cast hd hx], hframe⟩

/-- Settles O23: the read of the X run or of the Y run stops at an entry never written. -/
theorem lagr0FaultsOnUnwrittenPair : Obligations.Lagr0FaultsOnUnwrittenPair := by
  intro rd base count s h1 h2 hw
  obtain ⟨b, hb, j, hj, hnone, hfault⟩ := exec_lagr0_fault h1 h2 hw rd
  exact ⟨b, base + j, hb, by omega, by omega, hnone, hfault⟩

/-- Settles O24: the value is the interpolating polynomial's at 0, which a pair with x = 0 fixes. -/
theorem lagr0AcceptsZeroX : Obligations.Lagr0AcceptsZeroX := by
  intro rd base count s h1 h2 hw hd hcanon
  obtain ⟨u, hu, hval, -, -, hrecord, -⟩ := exec_lagr0_next h1 h2 hw hd rd
  have hx : ∀ j < count, entryNum s .x (base + j) ≤ 256 := fun j hj => (hcanon j hj).1
  refine ⟨u, hu, hrecord, fun j hj h0 => ?_⟩
  rw [hval]
  refine eq_of_cast_zmod (windowLagrange_lt s base count) (Nat.lt_succ_of_le (hcanon j hj).2) ?_
  rw [windowLagrange_cast hd hx, lagrangeSum_of_zero_x hd hx hj h0, windowResidue]

/-- Settles O25: enough pairs determine the polynomial, whose value at 0 is its constant term; and `lagrange0` is a
residue whatever the pairs are. -/
theorem enoughSharesGiveConstantTerm : Obligations.EnoughSharesGiveConstantTerm := by
  refine ⟨fun rd base count t a s ht htc h2 ha hw hd hpairs => ?_, fun rd base count s h1 h2 hw hd => ?_⟩
  · obtain ⟨u, hu, hval, hframe⟩ := exec_lagr0_next (ht.trans htc) h2 hw hd rd
    have hx : ∀ j < count, entryNum s .x (base + j) ≤ 256 := fun j hj => (hpairs j hj).1
    refine ⟨u, hu, ?_, hframe⟩
    rw [hval]
    refine eq_of_cast_zmod (windowLagrange_lt s base count) (Nat.lt_succ_of_le ha) ?_
    rw [windowLagrange_cast hd hx, lagrangeSum_of_poly ht htc hd hx fun j hj => (hpairs j hj).2]
  · obtain ⟨u, hu, hval, -, -, hrecord, -⟩ := exec_lagr0_next h1 h2 hw hd rd
    have hlt := windowLagrange_lt s base count
    exact ⟨u, hu, by omega, hrecord⟩

end Sys2Proof.Machine
end

section
/-! PROOFS. The family of 43_data_movement.md: the immediate and the copy (R120, R121), the stores into the buffers (R122,
R124), and the loads from them with their fault (R123, R125, R126). -/

namespace Sys2Proof.Machine

/-! ### The rule of each command -/

theorem exec_ldi (rd : Reg) (imm : Nat) (s : State) : exec (.ldi rd imm) s = s.finish rd (toElem (imm % 257)) := by
  rw [← modP_natCast]
  rfl

theorem exec_mov (rd rs1 : Reg) (s : State) : exec (.mov rd rs1) s = s.finish rd (s.getF rs1) := rfl

theorem exec_cst (idx : Idx) (rs1 : Reg) (s : State) :
    exec (.cst idx rs1) s = .next (s.setEntry .c idx (s.getF rs1)).succeed := rfl

theorem exec_pst (idx : Idx) (rs1 rs2 : Reg) (s : State) : exec (.pst idx rs1 rs2) s =
    .next ((s.setEntry .x idx (s.getF rs1)).setEntry .y idx (s.getF rs2)).succeed := rfl

theorem exec_cld (rd : Reg) (idx : Idx) (s : State) : exec (.cld rd idx) s = s.loadEntry rd .c idx := rfl

theorem exec_pldx (rd : Reg) (idx : Idx) (s : State) : exec (.pldx rd idx) s = s.loadEntry rd .x idx := rfl

theorem exec_pldy (rd : Reg) (idx : Idx) (s : State) : exec (.pldy rd idx) s = s.loadEntry rd .y idx := rfl

/-! ### The end of a store -/

/-- A command that ends with a state `u` whose buffers alone may differ from those of `s` counts, and keeps the registers,
the record and the outside of `s`. -/
theorem succeed_frame_of_sameButBuffers {s u : State}
    (h : u = { s with bufC := u.bufC, bufX := u.bufX, bufY := u.bufY }) :
    SameF s u.succeed ∧ SameRecord s u.succeed ∧ SameOutside s u.succeed ∧ Counted s u.succeed := by
  rw [h]
  exact ⟨fun _ => rfl, ⟨rfl, rfl, rfl⟩, ⟨rfl, rfl, rfl, rfl, rfl⟩, ⟨rfl, rfl⟩⟩

/-- The entries after a pair is stored in X and Y. -/
theorem entry_storePair (s : State) (k j : Nat) (u v : Elem) (b : Buf) :
    ((s.setEntry .x k u).setEntry .y k v).entry b j =
      if b = .y ∧ j = k then some v else if b = .x ∧ j = k then some u else s.entry b j := by
  rw [State.entry_setEntry, State.entry_setEntry]

/-! ### The two outcomes of a load -/

theorem loadEntry_next {s : State} {b : Buf} {k : Nat} {v : Elem} (h : s.entry b k = some v) (rd : Reg) :
    ∃ t, s.loadEntry rd b k = .next t ∧ t.getF rd = v ∧ WroteOnlyF rd s t := by
  rcases loadEntry_cases s rd b k with ⟨v', hv', hload⟩ | ⟨hnone, -⟩
  · obtain rfl : v' = v := Option.some.inj (hv'.symm.trans h)
    rw [hload]
    exact finish_next s rd v'
  · cases hnone.symm.trans h

theorem loadEntry_fault {s : State} {b : Buf} {k : Nat} (h : s.entry b k = none) (rd : Reg) :
    s.loadEntry rd b k = .fault (.unwrittenEntry b k) := by
  rcases loadEntry_cases s rd b k with ⟨v, hv, -⟩ | ⟨-, hload⟩
  · cases hv.symm.trans h
  · exact hload

/-! ### The statements -/

/-- Settles O31: Y is written after X, in another buffer, so both stored values stand; the stores touch buffers alone. -/
theorem pstStoresPair : Obligations.PstStoresPair := by
  refine ⟨rowOf_of_find rfl, fun idx rs1 rs2 s => ⟨_, exec_pst idx rs1 rs2 s, ?_, ?_, fun b k hout => ?_,
    succeed_frame_of_sameButBuffers rfl⟩⟩
  · rw [State.entry_succeed, entry_storePair, if_neg (fun h => nomatch h.1), if_pos ⟨rfl, rfl⟩]
  · rw [State.entry_succeed, entry_storePair, if_pos ⟨rfl, rfl⟩]
  · have hy : ¬ (b = .y ∧ k = idx.val) := fun h => hout ⟨.inr h.1, h.2⟩
    have hx : ¬ (b = .x ∧ k = idx.val) := fun h => hout ⟨.inl h.1, h.2⟩
    rw [State.entry_succeed, entry_storePair, if_neg hy, if_neg hx]

/-- Settles O28: the immediate is reduced once, which subtracts 257 at most once up to 511. -/
theorem ldiLoadsReducedImmediate : Obligations.LdiLoadsReducedImmediate := by
  refine ⟨rowOf_of_find rfl, fun rd imm s => ?_⟩
  obtain ⟨t, ht, hval, hframe⟩ := finish_value s rd (v := imm % 257) (by omega)
  refine ⟨t, (exec_ldi rd imm s).trans ht, fun himm => ?_, hframe⟩
  rw [hval]
  split <;> omega

/-- Settles O29: MOV ends with the source register's value as its one result. -/
theorem movCopiesRegister : Obligations.MovCopiesRegister := by
  refine ⟨rowOf_of_find rfl, fun rd rs1 s => ?_⟩
  rw [exec_mov]
  exact finish_next s rd (s.getF rs1)

/-- Settles O30: one entry of C is written, and the store touches buffers alone. -/
theorem cstStoresCoefficient : Obligations.CstStoresCoefficient := by
  refine ⟨rowOf_of_find rfl, fun idx rs1 s => ⟨_, exec_cst idx rs1 s, ?_, fun b k hout => ?_,
    succeed_frame_of_sameButBuffers rfl⟩⟩
  · rw [State.entry_succeed, State.entry_setEntry, if_pos ⟨rfl, rfl⟩]
  · rw [State.entry_succeed, State.entry_setEntry, if_neg hout]

/-- Settles O32: CLD is the shared load from C. -/
theorem cldLoadsCoefficient : Obligations.CldLoadsCoefficient := by
  refine ⟨rowOf_of_find rfl, fun rd idx s => ?_⟩
  rw [exec_cld]
  exact ⟨fun _ h => loadEntry_next h rd, fun h => loadEntry_fault h rd⟩

/-- Settles O33: PLDX and PLDY are the shared load from X and from Y. -/
theorem pldxPldyLoadPair : Obligations.PldxPldyLoadPair := by
  refine ⟨rowOf_of_find rfl, rowOf_of_find rfl, fun rd idx s => ?_⟩
  rw [exec_pldx, exec_pldy]
  exact ⟨fun _ h => loadEntry_next h rd, fun _ h => loadEntry_next h rd, fun h => loadEntry_fault h rd,
    fun h => loadEntry_fault h rd⟩

end Sys2Proof.Machine
end

section
/-! PROOFS. The family of 44_control.md: NOP and CLRERR (R144, R146), which CMD writes are accepted (R140, R141), and the
two ways a completion ends, with no bus transaction disturbing the command in flight (R142). -/

namespace Sys2Proof

/-! ### The opcode of a decoded command (R65) -/

/-- Every row of the map builds commands of its own opcode. -/
theorem opcodeMap_build_opcode : ∀ r ∈ opcodeMap, ∀ w, (r.build w).opcode = r.op := by
  simp [opcodeMap, Instr.opcode]

theorem opcode_of_decode {w : Word} {i : Instr} (h : decode w = .command i) : i.opcode = opcodeOf w := by
  obtain ⟨r, hr, -, hop, hd⟩ | ⟨r, -, -, -, hd⟩ | ⟨-, hd⟩ := decode_cases w <;> rw [hd] at h
  · rw [← Decoded.command.inj h, opcodeMap_build_opcode r hr w, hop]
  · cases h
  · cases h

/-- Only the word 0xFC000000 is CLRERR: its row's mask covers every bit (R146). -/
theorem decode_clrerr_iff (w : Word) : decode w = .command .clrerr ↔ w = 0xFC000000#32 := by
  constructor
  · intro h
    have hd := decode_of_opcode (r := ⟨0x3F#6, 0xFC000000#32, 0xFFFFFFFF#32, fun _ => .clrerr⟩)
      (by simp [opcodeMap]) (opcode_of_decode h).symm
    by_contra hw
    rw [if_neg (by rwa [show 0xFFFFFFFF#32 = BitVec.allOnes 32 from rfl, BitVec.and_allOnes])] at hd
    cases hd.symm.trans h
  · rintro rfl
    decide

end Sys2Proof

namespace Sys2Proof.Machine

/-! ### The ends of a command (R142) -/

/-- `u` is `s` with results written: only registers and buffers may differ. -/
def StoresResults (s u : State) : Prop :=
  u = { s with f := u.f, bufC := u.bufC, bufX := u.bufX, bufY := u.bufY }

/-- A successful end counts, and keeps the record and the outside of the state. -/
theorem succeed_frame_of_storesResults {s u : State} (h : StoresResults s u) :
    Counted s u.succeed ∧ SameOutside s u.succeed ∧ SameRecord s u.succeed := by
  rw [h]
  exact ⟨⟨rfl, rfl⟩, ⟨rfl, rfl, rfl, rfl, rfl⟩, rfl, rfl, rfl⟩

theorem failedWith_fail (s : State) (e : ErrCode) (op : Opcode) : FailedWith e op s (s.fail e op) := by
  obtain ⟨t, ht, hfail⟩ := raise_next s e op
  cases ht
  exact hfail

/-- The three ways a command of opcode `op` ends from `s`, CLRERR apart: results stored and counted, an error raised, or a
fault. -/
def EndsAs (op : Opcode) (s : State) (r : Result) : Prop :=
  (∃ u, StoresResults s u ∧ r = .next u.succeed) ∨ (∃ e, e ≠ .none ∧ r = s.raise e op) ∨ ∃ q, r = .fault q

theorem endsAs_finish (op : Opcode) (s : State) (rd : Reg) (v : Elem) : EndsAs op s (s.finish rd v) :=
  .inl ⟨s.setF rd v, rfl, rfl⟩

theorem endsAs_raise {e : ErrCode} (he : e ≠ .none) (op : Opcode) (s : State) : EndsAs op s (s.raise e op) :=
  .inr (.inl ⟨e, he, rfl⟩)

theorem endsAs_fault (op : Opcode) (s : State) (q : Fault) : EndsAs op s (.fault q) := .inr (.inr ⟨q, rfl⟩)

theorem endsAs_loadEntry (op : Opcode) (s : State) (rd : Reg) (b : Buf) (k : Nat) :
    EndsAs op s (s.loadEntry rd b k) := by
  obtain ⟨v, -, h⟩ | ⟨-, h⟩ := loadEntry_cases s rd b k <;> rw [h]
  · exact endsAs_finish op s rd v
  · exact endsAs_fault op s _

theorem endsAs_minv (rd rs1 : Reg) (s : State) : EndsAs 0x06#6 s (exec (.minv rd rs1) s) := by
  by_cases h : s.num rs1 = 0
  · rw [exec_minv_zero h]
    exact endsAs_raise (by decide) _ s
  · rw [exec_minv_of_pos (by omega)]
    exact endsAs_finish _ s rd _

theorem endsAs_peval (rd rs1 : Reg) (t : Nat) (s : State) : EndsAs 0x10#6 s (exec (.peval rd rs1 t) s) := by
  obtain rfl | ht := Nat.eq_zero_or_pos t
  · rw [exec_peval_zero]
    exact endsAs_raise (by decide) _ s
  · by_cases hw : CoeffsWritten s t
    · rw [exec_peval_written ht hw]
      exact endsAs_finish _ s rd _
    · obtain ⟨k, -, -, hfault⟩ := exec_peval_fault ht hw rd rs1
      rw [hfault]
      exact endsAs_fault _ s _

theorem endsAs_split (n t : Nat) (s : State) : EndsAs 0x11#6 s (exec (.split n t) s) := by
  by_cases hok : 1 ≤ t ∧ t ≤ n ∧ n ≤ 255
  · by_cases hw : CoeffsWritten s t
    · exact .inl ⟨withShares s (coeffs s t) n, rfl, exec_split_written hok hw⟩
    · obtain ⟨k, -, -, hfault⟩ := exec_split_fault hok hw
      rw [hfault]
      exact endsAs_fault _ s _
  · rw [exec_split_rejected (by omega)]
    exact endsAs_raise (by decide) _ s

theorem endsAs_lagr0 (rd : Reg) (base count : Nat) (s : State) :
    EndsAs 0x12#6 s (exec (.lagr0 rd base count) s) := by
  obtain rfl | h1 := Nat.eq_zero_or_pos count
  · rw [exec_lagr0_empty]
    exact endsAs_raise (by decide) _ s
  · by_cases h2 : base + count ≤ 256
    · by_cases hw : WindowWritten s base count
      · rw [exec_lagr0_written h1 h2 hw]
        split
        · exact endsAs_finish _ s rd _
        · exact endsAs_raise (by decide) _ s
      · obtain ⟨b, -, j, -, -, hfault⟩ := exec_lagr0_fault h1 h2 hw rd
        rw [hfault]
        exact endsAs_fault _ s _
    · rw [exec_lagr0_beyond h1 (by omega)]
      exact endsAs_raise (by decide) _ s

theorem exec_nop (s : State) : exec .nop s = .next s.succeed := rfl

theorem exec_clrerr (s : State) : exec .clrerr s = .next s.clearError.succeed := rfl

/-- Every command but CLRERR ends in one of the three ways, and raises errors of its own opcode only. -/
theorem exec_endsAs {i : Instr} (hi : i ≠ .clrerr) (s : State) : EndsAs i.opcode s (exec i s) := by
  cases i with
  | nop => exact .inl ⟨s, rfl, exec_nop s⟩
  | ldi rd | mov rd | madd rd | msub rd | mmul rd | mpow rd | mpowi rd => exact endsAs_finish _ s rd _
  | minv rd rs1 => exact endsAs_minv rd rs1 s
  | peval rd rs1 t => exact endsAs_peval rd rs1 t s
  | split n t => exact endsAs_split n t s
  | lagr0 rd base count => exact endsAs_lagr0 rd base count s
  | cst idx rs1 => exact .inl ⟨s.setEntry .c idx (s.getF rs1), rfl, exec_cst idx rs1 s⟩
  | pst idx rs1 rs2 =>
    exact .inl ⟨(s.setEntry .x idx (s.getF rs1)).setEntry .y idx (s.getF rs2), rfl, exec_pst idx rs1 rs2 s⟩
  | cld rd idx => exact endsAs_loadEntry _ s rd .c idx
  | pldx rd idx => exact endsAs_loadEntry _ s rd .x idx
  | pldy rd idx => exact endsAs_loadEntry _ s rd .y idx
  | clrerr => exact absurd rfl hi

/-- A command that answers a next state either counted, with the record kept (cleared by CLRERR), or recorded an error
with no result and no count. -/
theorem exec_next_cases {i : Instr} {s t : State} (h : exec i s = .next t) :
    (Counted s t ∧ SameOutside s t ∧
      if i = .clrerr then t.err = false ∧ t.errcode = .none ∧ t.errop = 0#6 else SameRecord s t) ∨
    ∃ e, e ≠ .none ∧ FailedWith e i.opcode s t := by
  by_cases hi : i = .clrerr
  · subst hi
    cases h
    exact .inl ⟨⟨rfl, rfl⟩, ⟨rfl, rfl, rfl, rfl, rfl⟩, rfl, rfl, rfl⟩
  · obtain ⟨u, hu, hend⟩ | ⟨e, he, hend⟩ | ⟨q, hend⟩ := exec_endsAs hi s <;> cases hend.symm.trans h
    · obtain ⟨hcount, hout, hrecord⟩ := succeed_frame_of_storesResults hu
      exact .inl ⟨hcount, hout, by rwa [if_neg hi]⟩
    · exact .inr ⟨e, he, failedWith_fail s e i.opcode⟩

/-- STATUS reads 0 after CLRERR: no record, and nothing in flight (R146). -/
theorem statusWord_clearError_succeed (s : State) : s.clearError.succeed.statusWord = 0#32 := by
  simp [State.statusWord, ErrCode.code]

/-! ### The completion (R142) -/

theorem complete_of_command {s : State} {i : Instr} (h : decode s.latch = .command i) : s.complete = exec i s := by
  unfold State.complete
  rw [h]

/-- Everything a completion that answers a next state can be. -/
theorem complete_next_cases {s t : State} (h : s.complete = .next t) :
    (∃ i, decode s.latch = .command i ∧ exec i s = .next t) ∨
      (∃ why, decode s.latch = .illegal why) ∧ FailedWith .illegalCommand (opcodeOf s.latch) s t := by
  cases hd : decode s.latch with
  | command i => exact .inl ⟨i, rfl, (complete_of_command hd).symm.trans h⟩
  | illegal why =>
    cases (complete_of_illegal hd).symm.trans h
    exact .inr ⟨⟨why, rfl⟩, failedWith_fail s .illegalCommand _⟩

/-- A completion that answers a next state counts the word in flight or records an error of its opcode. -/
theorem complete_counts_or_fails {s t : State} (h : s.complete = .next t) :
    (Counted s t ∧ SameOutside s t ∧
      if s.latch = 0xFC000000#32 then t.err = false ∧ t.errcode = .none ∧ t.errop = 0#6 else SameRecord s t) ∨
    ∃ e, e ≠ .none ∧ FailedWith e (opcodeOf s.latch) s t := by
  obtain ⟨i, hd, hexec⟩ | ⟨-, hfail⟩ := complete_next_cases h
  · have hclrerr : i = .clrerr ↔ s.latch = 0xFC000000#32 := by simp [← decode_clrerr_iff, hd]
    simpa only [hclrerr, opcode_of_decode hd] using exec_next_cases hexec
  · exact .inr ⟨_, by decide, hfail⟩

/-! ### Bus transactions while a command is in flight (R47, R141, R142) -/

/-- `t` is `s` but for the error record and the host's side of a read. -/
def SameButRecordAndAnswer (s t : State) : Prop :=
  t = { s with err := t.err, errcode := t.errcode, errop := t.errop, rdata := t.rdata, draws := t.draws }

theorem sameButRecordAndAnswer_recordError (s : State) (e : ErrCode) (op : Opcode) :
    SameButRecordAndAnswer s (s.recordError e op) := by
  unfold State.recordError
  split <;> rfl

theorem offer_busy {s : State} (hb : s.busy = true) (w : Word) :
    s.offer w = s.recordError .busyViolation (opcodeOf s.latch) := by
  simp [State.offer, hb]

/-- While BUSY = 1 no bus write does more than record an error. -/
theorem busWrite_busy {s : State} (hb : s.busy = true) (off : Nat) (w : Word) :
    SameButRecordAndAnswer s (s.busWrite off w) := by
  cases hl : locate off with
  | cmd =>
    rw [State.busWrite, hl]
    exact offer_busy hb w ▸ sameButRecordAndAnswer_recordError s _ _
  | field i => exact busWrite_fieldTyped_busy w (.inl ⟨i, hl⟩) hb ▸ sameButRecordAndAnswer_recordError s _ _
  | entry b k => exact busWrite_fieldTyped_busy w (.inr ⟨b, k, hl⟩) hb ▸ sameButRecordAndAnswer_recordError s _ _
  | id | status | cmdcnt | reserved => rw [busWrite_ignored w (by simp [hl])]; rfl

/-- A host write that answers a next state leaves the core alone, outside the window, or is the window's write. -/
theorem hostWrite_next {s t : State} {addr : Nat} {size : Size} {enables : BitVec 4} {w : Word}
    (h : s.hostWrite addr size enables w = .next t) : t = s ∨ ∃ off, t = s.busWrite off w := by
  unfold State.hostWrite at h
  split at h
  · cases h
    exact .inl rfl
  · split at h <;> cases h
    exact .inr ⟨_, rfl⟩

/-- While BUSY = 1 no bus transaction changes more than the error record and the host's side of a read. -/
theorem act_transaction_busy {s t : State} {e : Event} (hb : s.busy = true) (hturn : e ≠ .coreTurn)
    (hrst : ∀ level, e ≠ .rst level) (h : s.act e = .next t) : SameButRecordAndAnswer s t := by
  cases e with
  | coreTurn => exact absurd rfl hturn
  | rst level => exact absurd rfl (hrst level)
  | read addr size => rw [hostRead_next h]; rfl
  | write addr size enables w =>
    obtain rfl | ⟨off, rfl⟩ := hostWrite_next h
    · rfl
    · exact busWrite_busy hb off w

/-! ### The step over a CMD write (R140, R141) -/

theorem State.recordError_of_err_eq_false {s : State} (h : s.err = false) (e : ErrCode) (op : Opcode) :
    s.recordError e op = { s with err := true, errcode := e, errop := op } := by
  simp [State.recordError, h]

theorem offer_accepted {s : State} {w : Word} (hb : s.busy = false) (h : s.err = false ∨ w = clrerrWord) :
    s.offer w = { s with latch := w, busy := true } := by
  obtain h | h := h <;> simp [State.offer, hb, h]

theorem offer_discarded {s : State} {w : Word} (hb : s.busy = false) (he : s.err = true) (hw : w ≠ clrerrWord) :
    s.offer w = s := by
  simp [State.offer, hb, he, hw]

/-- A step over a CMD write offers the word to the core. -/
theorem step_cmdWrite {s : State} {w : Word} {rest : List Event} (h : s.inputs = hostWr 0x008 w :: rest)
    (hr : s.rst = false) : step s = .next ((afterInput s).offer w) := by
  rw [step_hostWr h hr (by decide) (by decide), ← afterInput_cons h]
  rfl

/-! ### The statements -/

/-- Settles O37: the step is the completion of the word in flight, and every command ends in a count or an error; before it,
a transaction can at most record an error or answer the host. -/
theorem completionCountsOrFails : Obligations.CompletionCountsOrFails := by
  refine ⟨fun s t hnext ht => ?_, fun s t e rest hin hr hb hturn hrst ht => ?_⟩
  · rw [step_completion hnext] at ht
    exact ⟨complete_next_cases ht, complete_counts_or_fails ht⟩
  · rw [step_cons hin] at ht
    rw [act_transaction_busy (s := { s with inputs := rest }) hb hturn hrst ht]
    exact ⟨fun _ => rfl, fun b _ => by cases b <;> rfl, rfl, rfl, hb⟩

/-- Settles O38: the core takes the word offered to it. -/
theorem cmdWriteAccepted : Obligations.CmdWriteAccepted := by
  intro s w rest hin hr hb h
  rw [step_cmdWrite hin hr, offer_accepted (s := afterInput s) hb h, afterInput_cons hin]

/-- Settles O39: while busy the offer only records an error, which a held record absorbs; idle with a record held, any
word but CLRERR's is dropped. -/
theorem cmdWriteDiscarded : Obligations.CmdWriteDiscarded := by
  intro s w rest hin hr
  rw [step_cmdWrite hin hr]
  refine ⟨fun hb he => ?_, fun hb he => ?_, fun hb he hw => ?_⟩
  · rw [offer_busy (s := afterInput s) hb, State.recordError_of_err_eq_false (s := afterInput s) he,
      afterInput_cons hin]
  · rw [offer_busy (s := afterInput s) hb, State.recordError_of_err (s := afterInput s) he, afterInput_cons hin]
  · rw [offer_discarded (s := afterInput s) hb he hw, afterInput_cons hin]

/-- Settles O34: NOP is its successful end and nothing before it. -/
theorem nopOnlyCounts : Obligations.NopOnlyCounts :=
  ⟨rowOf_of_find rfl, fun s => ⟨_, exec_nop s, fun _ => rfl, fun b k => State.entry_succeed s b k, ⟨rfl, rfl, rfl⟩,
    ⟨rfl, rfl, rfl, rfl, rfl⟩, rfl, rfl⟩⟩

/-- Settles O35: CLRERR clears the record before its successful end, and an idle core with a record held takes its word
alone. -/
theorem clrerrClearsRecord : Obligations.ClrerrClearsRecord := by
  refine ⟨rowOf_of_find rfl, fun s => ⟨_, exec_clrerr s, rfl, rfl, rfl, statusWord_clearError_succeed s,
    fun _ => rfl, fun b k => ?_, ⟨rfl, rfl, rfl, rfl, rfl⟩, rfl, rfl⟩, fun s w rest hin hr hb he => ?_⟩
  · rw [State.entry_succeed, State.entry_clearError]
  · split
    · next hw => exact cmdWriteAccepted s w rest hin hr hb (.inr hw)
    · next hw => exact (cmdWriteDiscarded s w rest hin hr).2.2 hb he hw

end Sys2Proof.Machine
end

section
/-! PROOFS. The family of 60_exceptions.md: the first error wins (R152), and what a bus transaction made while a command is
in flight does to the record (R153). -/

namespace Sys2Proof.Machine

/-- While BUSY = 1 a write to CMD or a field-typed location only records BUSY_VIOLATION with the opcode in flight (R153). -/
theorem busWrite_violation {s : State} {off : Nat} (w : Word) (hb : s.busy = true)
    (hoff : off = 0x008 ∨ (0x020 ≤ off ∧ off < 0x040) ∨ 0x400 ≤ off) :
    s.busWrite off w = s.recordError .busyViolation (opcodeOf s.latch) := by
  obtain rfl | hfield := hoff
  · exact offer_busy hb w
  · exact busWrite_fieldTyped_busy w (locate_fieldTyped hfield) hb

/-- A read made while BUSY = 1 never faults: it answers a word, drawn freely at a field-typed location (R186). -/
theorem busRead_busy {s : State} (hb : s.busy = true) (off : Nat) :
    (∃ w, s.busRead off = .next (s.answer w)) ∨ s.busRead off = .next s.answerFree := by
  cases hl : locate off with
  | id => exact .inl ⟨_, busRead_id hl⟩
  | status => exact .inl ⟨_, busRead_status hl⟩
  | cmd => exact .inl ⟨_, busRead_cmd hl⟩
  | cmdcnt => exact .inl ⟨_, busRead_cmdcnt hl⟩
  | reserved => exact .inl ⟨_, busRead_reserved hl⟩
  | field i => exact .inr (busRead_fieldTyped_busy (.inl ⟨i, hl⟩) hb)
  | entry b k => exact .inr (busRead_fieldTyped_busy (.inr ⟨b, k, hl⟩) hb)

/-- A completion while a record is held keeps that record, unless the word in flight is CLRERR's (R152, R159). -/
theorem complete_sameRecord_of_err {s t : State} (he : s.err = true) (hl : s.latch ≠ 0xFC000000#32)
    (h : s.complete = .next t) : SameRecord s t := by
  obtain ⟨-, -, hrecord⟩ | ⟨e, -, -, -, -, -, -, hheld, -⟩ := complete_counts_or_fails h
  · rwa [if_neg hl] at hrecord
  · exact hheld he

/-! ### The statements -/

/-- Settles O41: a write that needs the core idle is only a recorded error, which a held record absorbs; the map ignores
the other writes; a read touches the host's side alone; and a completion other than CLRERR's keeps a held record. -/
theorem busyWriteIsViolation : Obligations.BusyWriteIsViolation := by
  refine ⟨fun s off w rest hin hr hb ho ha => ⟨fun hoff => ?_, fun hoff => ?_⟩, fun s off rest hin hr hb ho ha => ?_,
    fun s t hnext he hl ht => ?_⟩
  · rw [step_hostWr hin hr ho ha, ← afterInput_cons hin, busWrite_violation (s := afterInput s) w hb hoff]
    refine ⟨fun he => ?_, fun he => ?_⟩
    · rw [State.recordError_of_err_eq_false (s := afterInput s) he, afterInput_cons hin]
    · rw [State.recordError_of_err (s := afterInput s) he, afterInput_cons hin]
  · obtain ⟨-, -, hignored⟩ := readOnlyAndReservedOffsets s off rest hr ho ha
    exact hignored w hin (by omega)
  · rw [step_hostRd hin hr ho ha]
    obtain ⟨w, h⟩ | h := busRead_busy (s := { s with inputs := rest }) hb off
    · exact ⟨_, h, ⟨rfl, rfl, rfl⟩, hb⟩
    · exact ⟨_, h, ⟨rfl, rfl, rfl⟩, hb⟩
  · rw [step_completion hnext] at ht
    exact complete_sameRecord_of_err (s := afterInput s) he hl ht

/-- Settles O40: recording looks at ERR alone, and a raise is a recording that ends the command. -/
theorem firstErrorWins : Obligations.FirstErrorWins := fun s e op =>
  ⟨fun he => State.recordError_of_err_eq_false he e op, fun he => State.recordError_of_err he e op, raise_next s e op⟩

end Sys2Proof.Machine
end

section
/-! PROOFS. The family of 70_reset_and_hazards.md: what reset puts back and what it refuses (R180, R181), the first command
after it (R182), and reads made while a command is in flight (R186). -/

namespace Sys2Proof.Machine

/-! ### Reset (R180, R181) -/

/-- Reset acts when the line is asserted and when it is released (R180). -/
theorem setRst_acts {s : State} {level : Bool} (h : level = true ∨ s.rst = true) :
    s.setRst level = s.applyReset level := by
  obtain h | h := h <;> simp [State.setRst, h]

theorem statusWord_applyReset (s : State) (level : Bool) : (s.applyReset level).statusWord = 0#32 := by
  simp only [State.statusWord, State.applyReset_busy, State.applyReset_err, State.applyReset_errcode,
    State.applyReset_errop]
  rfl

/-- A step over a change of the reset line at which reset acts is the reset. -/
theorem step_reset {s : State} {level : Bool} {rest : List Event} (h : s.inputs = .rst level :: rest)
    (hact : level = true ∨ s.rst = true) : step s = .next ((afterInput s).applyReset level) := by
  rw [step_cons h, afterInput_cons h]
  exact congrArg Host.Outcome.next (setRst_acts (s := { s with inputs := rest }) hact)

/-- While reset is asserted no transaction on the window is one the core defines, whatever its form (R181). -/
theorem busRefusal_reset {s : State} (hr : s.rst = true) (off : Nat) (size : Size) (enables : BitVec 4) :
    s.busRefusal off size enables = some .busDuringReset := by
  simp [State.busRefusal, hr]

theorem hostRead_reset {s : State} {off : Nat} (hr : s.rst = true) (ho : off < 4096) (size : Size) :
    s.hostRead (Config.base + off) size = .refused .busDuringReset := by
  simp [State.hostRead, busOffset_base off ho, busRefusal_reset hr]

theorem hostWrite_reset {s : State} {off : Nat} (hr : s.rst = true) (ho : off < 4096) (size : Size)
    (enables : BitVec 4) (w : Word) :
    s.hostWrite (Config.base + off) size enables w = .refused .busDuringReset := by
  simp [State.hostWrite, busOffset_base off ho, busRefusal_reset hr]

/-! ### The statements -/

/-- Settles O49: the map names what stands at the offset; a field-typed location answers the next draw while a command is
in flight, and no other read looks at BUSY. -/
theorem busyReadsAreFree : Obligations.BusyReadsAreFree := by
  intro s off rest hin hr hb ho ha
  rw [step_hostRd hin hr ho ha]
  refine ⟨fun hfield => ?_, fun hid => ?_, fun hstatus => ?_, fun hcmd => ?_, fun hcmdcnt => ?_, fun hres => ?_⟩
  · exact busRead_fieldTyped_busy (s := { s with inputs := rest }) (locate_fieldTyped hfield) hb
  · exact busRead_id (hid ▸ locate_id)
  · exact busRead_status (hstatus ▸ locate_status)
  · exact busRead_cmd (hcmd ▸ locate_cmd)
  · exact busRead_cmdcnt (hcmdcnt ▸ locate_cmdcnt)
  · exact busRead_reserved (locate_reserved hres)

/-- Settles O54: the step over the reset line is the reset, whose state holds the reset value of every field; while the
line is asserted the window refuses every transaction before it looks at its form. -/
theorem resetPutsEverythingBack : Obligations.ResetPutsEverythingBack := by
  refine ⟨fun s level rest hin hact => ?_, fun s off size enables w rest hr ho => ⟨fun hin => ?_, fun hin => ?_⟩⟩
  · have hinputs : ((afterInput s).applyReset level).inputs = rest := by
      rw [State.applyReset_inputs, afterInput_cons hin]
    exact ⟨_, step_reset hin hact, rfl, hinputs, State.getF_applyReset _ level, rfl, rfl, rfl, rfl,
      statusWord_applyReset _ level, rfl, State.entry_applyReset _ level⟩
  · rw [step_cons hin]
    exact hostRead_reset (s := { s with inputs := rest }) hr ho size
  · rw [step_cons hin]
    exact hostWrite_reset (s := { s with inputs := rest }) hr ho size enables w

/-- Settles O55: releasing reset leaves the core idle without a record, and such a core takes any word written to CMD. -/
theorem readyAfterReset : Obligations.ReadyAfterReset := by
  intro w s rest hin hr
  have hcmd : ((afterInput s).applyReset false).inputs = hostWr 0x008 w :: rest := by
    rw [State.applyReset_inputs, afterInput_cons hin]
  exact ⟨_, _, step_reset hin (.inr hr), step_cmdWrite_accepted hcmd rfl rfl rfl, rfl, rfl⟩

end Sys2Proof.Machine
end

section
/-! PROOFS. Encoding against decoding (30_encoding.md R61-R67): every well-formed command survives the way to its word and
back, every legal word is the encoding of its command, and the encoding vectors. -/

namespace Sys2Proof

open Sys2Proof.Machine Sys2Proof.Laws

/-! ### The operand fields of an encoded word (R63) -/

/-- An unsigned operand that fits the low field of `n` bits of `packWord` is read back from it. -/
theorem extractLsb'_packWord_ofNat {n v : Nat} (hn : n ≤ 16) (hv : v < 2 ^ n) (op : Opcode) (rd rs1 rs2 : Reg) :
    ((packWord op rd rs1 rs2 (BitVec.ofNat 16 v)).extractLsb' 0 n).toNat = v := by
  have hv16 : v < 2 ^ 16 := hv.trans_le (Nat.pow_le_pow_right (by decide) hn)
  rw [low_packWord _ _ _ _ _ _ _ (by omega), BitVec.extractLsb'_toNat, BitVec.toNat_ofNat, Nat.mod_eq_of_lt hv16,
    Nat.shiftRight_zero, Nat.mod_eq_of_lt hv]

theorem imm9Of_packWord {imm : Nat} (h : imm ≤ 511) (op : Opcode) (rd rs1 rs2 : Reg) :
    imm9Of (packWord op rd rs1 rs2 (BitVec.ofNat 16 imm)) = imm :=
  extractLsb'_packWord_ofNat (by decide) (Nat.lt_succ_of_le h) op rd rs1 rs2

theorem imm16Of_packWord {e : Nat} (h : e ≤ 65535) (op : Opcode) (rd rs1 rs2 : Reg) :
    imm16Of (packWord op rd rs1 rs2 (BitVec.ofNat 16 e)) = e :=
  extractLsb'_packWord_ofNat (by decide) (Nat.lt_succ_of_le h) op rd rs1 rs2

theorem a8Of_packWord {a b : Nat} (ha : a ≤ 255) (hb : b ≤ 255) (op : Opcode) (rd rs1 rs2 : Reg) :
    a8Of (packWord op rd rs1 rs2 (packBytes a b)) = a := by
  rw [a8Of, low_packWord _ _ _ _ _ _ _ (by decide), BitVec.extractLsb'_toNat, packBytes_toNat a b ha hb,
    Nat.shiftRight_eq_div_pow]
  omega

theorem b8Of_packWord {a b : Nat} (ha : a ≤ 255) (hb : b ≤ 255) (op : Opcode) (rd rs1 rs2 : Reg) :
    b8Of (packWord op rd rs1 rs2 (packBytes a b)) = b := by
  rw [b8Of, low_packWord _ _ _ _ _ _ _ (by decide), BitVec.extractLsb'_toNat, packBytes_toNat a b ha hb]
  omega

theorem idxOf_packWord (idx : Idx) (op : Opcode) (rd rs1 rs2 : Reg) :
    idxOf (packWord op rd rs1 rs2 (packBytes 0 idx)) = idx :=
  Fin.ext (b8Of_packWord (by decide) (Nat.le_of_lt_succ idx.isLt) op rd rs1 rs2)

/-! ### From a command to its word and back -/

/-- A command survives encoding when its opcode's row builds it again from its word. -/
theorem decode_encode_of_rowOf {i : Instr} {op : Opcode} {pattern mask : Word} {build : Word → Instr}
    (hrow : RowOf op pattern mask build) (hword : encode i &&& mask = op ++ 0#26)
    (hpattern : op ++ 0#26 = pattern) (hbuild : build (encode i) = i) : decode (encode i) = .command i :=
  (hrow.1 _ (hword.trans hpattern)).trans (congrArg Decoded.command hbuild)

theorem decode_encode {i : Instr} (h : i.wellFormed = true) : decode (encode i) = .command i := by
  cases i with
  | nop => exact decode_encode_of_rowOf nopOnlyCounts.1 (EncodesRow.nop h) (by decide) rfl
  | ldi rd imm =>
    refine decode_encode_of_rowOf ldiLoadsReducedImmediate.1 (EncodesRow.ldi rd imm h) (by decide) ?_
    simp only [encode, rdOf_packWord, imm9Of_packWord (of_decide_eq_true h)]
  | mov rd rs1 =>
    refine decode_encode_of_rowOf movCopiesRegister.1 (EncodesRow.mov rd rs1 h) (by decide) ?_
    simp only [encode, rdOf_packWord, rs1Of_packWord]
  | madd rd rs1 rs2 =>
    refine decode_encode_of_rowOf maddAddsModP.1 (EncodesRow.madd rd rs1 rs2 h) (by decide) ?_
    simp only [encode, rdOf_packWord, rs1Of_packWord, rs2Of_packWord]
  | msub rd rs1 rs2 =>
    refine decode_encode_of_rowOf msubSubtractsModP.1 (EncodesRow.msub rd rs1 rs2 h) (by decide) ?_
    simp only [encode, rdOf_packWord, rs1Of_packWord, rs2Of_packWord]
  | mmul rd rs1 rs2 =>
    refine decode_encode_of_rowOf mmulMultipliesModP.1 (EncodesRow.mmul rd rs1 rs2 h) (by decide) ?_
    simp only [encode, rdOf_packWord, rs1Of_packWord, rs2Of_packWord]
  | minv rd rs1 =>
    refine decode_encode_of_rowOf minvInvertsOrRaises.1 (EncodesRow.minv rd rs1 h) (by decide) ?_
    simp only [encode, rdOf_packWord, rs1Of_packWord]
  | mpow rd rs1 rs2 =>
    refine decode_encode_of_rowOf mpowRaisesToRegister.1 (EncodesRow.mpow rd rs1 rs2 h) (by decide) ?_
    simp only [encode, rdOf_packWord, rs1Of_packWord, rs2Of_packWord]
  | mpowi rd rs1 e =>
    refine decode_encode_of_rowOf mpowiRaisesToImmediate.1 (EncodesRow.mpowi rd rs1 e h) (by decide) ?_
    simp only [encode, rdOf_packWord, rs1Of_packWord, imm16Of_packWord (of_decide_eq_true h)]
  | peval rd rs1 t =>
    refine decode_encode_of_rowOf pevalEvaluatesPolynomial.1 (EncodesRow.peval rd rs1 t h) (by decide) ?_
    simp only [encode, rdOf_packWord, rs1Of_packWord, b8Of_packWord (Nat.zero_le _) (of_decide_eq_true h)]
  | split n t =>
    obtain ⟨hn, ht⟩ : n ≤ 255 ∧ t ≤ 255 := by simpa [Instr.wellFormed] using h
    refine decode_encode_of_rowOf splitWritesShares.1 (EncodesRow.split n t h) (by decide) ?_
    simp only [encode, a8Of_packWord hn ht, b8Of_packWord hn ht]
  | lagr0 rd base count =>
    obtain ⟨hb, hc⟩ : base ≤ 255 ∧ count ≤ 255 := by simpa [Instr.wellFormed] using h
    refine decode_encode_of_rowOf lagr0InterpolatesAtZero.1 (EncodesRow.lagr0 rd base count h) (by decide) ?_
    simp only [encode, rdOf_packWord, a8Of_packWord hb hc, b8Of_packWord hb hc]
  | cst idx rs1 =>
    refine decode_encode_of_rowOf cstStoresCoefficient.1 (EncodesRow.cst idx rs1 h) (by decide) ?_
    simp only [encode, rs1Of_packWord, idxOf_packWord]
  | cld rd idx =>
    refine decode_encode_of_rowOf cldLoadsCoefficient.1 (EncodesRow.cld rd idx h) (by decide) ?_
    simp only [encode, rdOf_packWord, idxOf_packWord]
  | pst idx rs1 rs2 =>
    refine decode_encode_of_rowOf pstStoresPair.1 (EncodesRow.pst idx rs1 rs2 h) (by decide) ?_
    simp only [encode, rs1Of_packWord, rs2Of_packWord, idxOf_packWord]
  | pldx rd idx =>
    refine decode_encode_of_rowOf pldxPldyLoadPair.1 (EncodesRow.pldx rd idx h) (by decide) ?_
    simp only [encode, rdOf_packWord, idxOf_packWord]
  | pldy rd idx =>
    refine decode_encode_of_rowOf pldxPldyLoadPair.2.1 (EncodesRow.pldy rd idx h) (by decide) ?_
    simp only [encode, rdOf_packWord, idxOf_packWord]
  | clrerr => exact decode_encode_of_rowOf clrerrClearsRecord.1 (EncodesRow.clrerr h) (by decide) rfl

/-! ### From a legal word to its command and back -/

theorem imm9Of_le (w : Word) : imm9Of w ≤ 511 := Nat.le_of_lt_succ (w.extractLsb' 0 9).isLt
theorem imm16Of_le (w : Word) : imm16Of w ≤ 65535 := Nat.le_of_lt_succ (w.extractLsb' 0 16).isLt
theorem a8Of_le (w : Word) : a8Of w ≤ 255 := Nat.le_of_lt_succ (w.extractLsb' 8 8).isLt
theorem b8Of_le (w : Word) : b8Of w ≤ 255 := Nat.le_of_lt_succ (w.extractLsb' 0 8).isLt

/-- Every row builds commands whose operands fit their fields (R69). -/
theorem opcodeMap_build_wellFormed : ∀ r ∈ opcodeMap, ∀ w, (r.build w).wellFormed = true := by
  simp [opcodeMap, Instr.wellFormed, imm9Of_le, imm16Of_le, a8Of_le, b8Of_le]

/-- Two words of one row are equal when they agree on fields that cover every bit outside the row's mask. -/
theorem eq_of_match_of_fields {w w' mask pattern : Word} (hw : w &&& mask = pattern) (hw' : w' &&& mask = pattern)
    (fields : List (Nat × Nat)) (hcover : ∀ i < 32, mask.getLsbD i = true ∨ ∃ p ∈ fields, p.1 ≤ i ∧ i < p.1 + p.2)
    (hfields : ∀ p ∈ fields, w.extractLsb' p.1 p.2 = w'.extractLsb' p.1 p.2) : w = w' := by
  refine BitVec.eq_of_getLsbD_eq fun i hi => ?_
  obtain hmask | ⟨p, hp, hlo, hhi⟩ := hcover i hi
  · have h := congrArg (·.getLsbD i) (hw.trans hw'.symm)
    simpa [hmask] using h
  · have h := congrArg (·.getLsbD (i - p.1)) (hfields p hp)
    simpa [BitVec.getLsbD_extractLsb', show i - p.1 < p.2 by omega, Nat.add_sub_cancel' hlo] using h

theorem rdOf_eq_iff {w w' : Word} : rdOf w = rdOf w' ↔ w.extractLsb' 23 3 = w'.extractLsb' 23 3 := BitVec.toFin_inj
theorem rs1Of_eq_iff {w w' : Word} : rs1Of w = rs1Of w' ↔ w.extractLsb' 20 3 = w'.extractLsb' 20 3 := BitVec.toFin_inj
theorem rs2Of_eq_iff {w w' : Word} : rs2Of w = rs2Of w' ↔ w.extractLsb' 17 3 = w'.extractLsb' 17 3 := BitVec.toFin_inj
theorem imm9Of_eq_iff {w w' : Word} : imm9Of w = imm9Of w' ↔ w.extractLsb' 0 9 = w'.extractLsb' 0 9 := BitVec.toNat_inj
theorem imm16Of_eq_iff {w w' : Word} : imm16Of w = imm16Of w' ↔ w.extractLsb' 0 16 = w'.extractLsb' 0 16 :=
  BitVec.toNat_inj
theorem a8Of_eq_iff {w w' : Word} : a8Of w = a8Of w' ↔ w.extractLsb' 8 8 = w'.extractLsb' 8 8 := BitVec.toNat_inj
theorem b8Of_eq_iff {w w' : Word} : b8Of w = b8Of w' ↔ w.extractLsb' 0 8 = w'.extractLsb' 0 8 := BitVec.toNat_inj
theorem idxOf_eq_iff {w w' : Word} : idxOf w = idxOf w' ↔ w.extractLsb' 0 8 = w'.extractLsb' 0 8 := BitVec.toFin_inj

/-- The bit ranges of a row's operands, as (lowest bit, width) (R61, R65). -/
def operandFields : Instr → List (Nat × Nat)
  | .nop | .clrerr => []
  | .ldi _ _ => [(23, 3), (0, 9)]
  | .mov _ _ | .minv _ _ => [(23, 3), (20, 3)]
  | .madd _ _ _ | .msub _ _ _ | .mmul _ _ _ | .mpow _ _ _ => [(23, 3), (20, 3), (17, 3)]
  | .mpowi _ _ _ => [(23, 3), (20, 3), (0, 16)]
  | .peval _ _ _ => [(23, 3), (20, 3), (0, 8)]
  | .split _ _ => [(8, 8), (0, 8)]
  | .lagr0 _ _ _ => [(23, 3), (8, 8), (0, 8)]
  | .cst _ _ => [(0, 8), (20, 3)]
  | .cld _ _ | .pldx _ _ | .pldy _ _ => [(23, 3), (0, 8)]
  | .pst _ _ _ => [(0, 8), (20, 3), (17, 3)]

/-- The operand fields of a row's command are exactly what its mask leaves open. -/
theorem operandFields_cover : ∀ r ∈ opcodeMap, ∀ w, ∀ i < 32, r.mask.getLsbD i = true ∨
    ∃ p ∈ operandFields (r.build w), p.1 ≤ i ∧ i < p.1 + p.2 := by
  simp only [opcodeMap, List.forall_mem_cons]
  refine ⟨?_, ?_, ?_, ?_, ?_, ?_, ?_, ?_, ?_, ?_, ?_, ?_, ?_, ?_, ?_, ?_, ?_, ?_, by simp⟩
  all_goals exact fun _ => by simp only [operandFields]; decide

/-- A row that builds one command from two words reads equal operand fields in them. -/
theorem operandFields_agree : ∀ r ∈ opcodeMap, ∀ w w', r.build w = r.build w' →
    ∀ p ∈ operandFields (r.build w), w.extractLsb' p.1 p.2 = w'.extractLsb' p.1 p.2 := by
  simp only [opcodeMap, List.forall_mem_cons]
  refine ⟨by simp [operandFields], ?_, ?_, ?_, ?_, ?_, ?_, ?_, ?_, ?_, ?_, ?_, ?_, ?_, ?_, ?_, ?_,
    by simp [operandFields], by simp⟩
  all_goals
    intro w w' h
    simpa [operandFields, List.forall_mem_cons, -List.mem_cons, rdOf_eq_iff, rs1Of_eq_iff, rs2Of_eq_iff,
      imm9Of_eq_iff, imm16Of_eq_iff, a8Of_eq_iff, b8Of_eq_iff, idxOf_eq_iff] using h

/-- No two words decode to the same command: both match the row of its opcode and agree on its operand fields. -/
theorem decode_injective {w w' : Word} {i : Instr} (h : decode w = .command i) (h' : decode w' = .command i) :
    w = w' := by
  obtain ⟨r, hr, hmatch, hop, hd⟩ | ⟨r, -, -, -, hd⟩ | ⟨-, hd⟩ := decode_cases w <;> cases hd.symm.trans h
  have hop' : opcodeOf w' = r.op := by rw [← opcode_of_decode h', opcodeMap_build_opcode r hr]
  rw [decode_of_opcode hr hop'] at h'
  split at h'
  · next hmatch' =>
    have hbuild : r.build w = r.build w' := (Decoded.command.inj h').symm
    exact eq_of_match_of_fields hmatch hmatch' _ (operandFields_cover r hr w) (operandFields_agree r hr w w' hbuild)
  · cases h'

theorem wellFormed_of_decode {w : Word} {i : Instr} (h : decode w = .command i) : i.wellFormed = true := by
  obtain ⟨r, hr, -, -, hd⟩ | ⟨r, -, -, -, hd⟩ | ⟨-, hd⟩ := decode_cases w <;> cases hd.symm.trans h
  exact opcodeMap_build_wellFormed r hr w

/-! ### The statements -/

/-- Settles O2: the encoded word matches its opcode's row, whose fields are the command's operands. -/
theorem decodeEncodeRoundTrip : Obligations.DecodeEncodeRoundTrip := fun _ => decode_encode

/-- Settles O3: the encoding of the decoded command decodes to it as well, and decoding is injective on legal words. -/
theorem encodeDecodeRoundTrip : Obligations.EncodeDecodeRoundTrip := by
  intro w i h
  have hwf := wellFormed_of_decode h
  exact ⟨hwf, decode_injective (decode_encode hwf) h⟩

/-- Settles O1: closed facts about the decoder. -/
theorem specWordsDecode : Obligations.SpecWordsDecode := by
  unfold Obligations.SpecWordsDecode
  decide

end Sys2Proof
end

section
/-! PROOFS. The whole machine: everything one step can do, and what every step keeps: the invariant (R20, R21, R27, R28,
R181), a held error record (R26, R159) and the count of successes (R31). -/

namespace Sys2Proof.Machine

/-! ### Everything a step can do -/

/-- Everything a write in the window can do (R45, R140, R141, R47, R153). -/
theorem busWrite_cases (s : State) (off : Nat) (w : Word) :
    s.busWrite off w = s ∨ (s.busy = true ∧ s.busWrite off w = s.recordError .busyViolation (opcodeOf s.latch)) ∨
      s.busWrite off w = { s with latch := w, busy := true } ∨ (∃ i, s.busWrite off w = s.setF i (busOperand w)) ∨
      ∃ (b : Buf) (k : Idx), s.busWrite off w = s.setEntry b k (busOperand w) := by
  cases hl : locate off with
  | id | status | cmdcnt | reserved => exact .inl (busWrite_ignored w (by simp [hl]))
  | cmd =>
    have hoffer : s.busWrite off w = s.offer w := by rw [State.busWrite, hl]
    rw [hoffer]
    obtain ⟨hb, h⟩ | ⟨-, -, -, h⟩ | ⟨-, -, h⟩ := offer_cases s w
    · exact .inr (.inl ⟨hb, h⟩)
    · exact .inl h
    · exact .inr (.inr (.inl h))
  | field i =>
    cases hb : s.busy with
    | true => exact .inr (.inl ⟨rfl, busWrite_fieldTyped_busy w (.inl ⟨i, hl⟩) hb⟩)
    | false => exact .inr (.inr (.inr (.inl ⟨i, busWrite_field_idle w hl hb⟩)))
  | entry b k =>
    cases hb : s.busy with
    | true => exact .inr (.inl ⟨rfl, busWrite_fieldTyped_busy w (.inr ⟨b, k, hl⟩) hb⟩)
    | false => exact .inr (.inr (.inr (.inr ⟨b, k, busWrite_entry_idle w hl hb⟩)))

theorem busWrite_cmdcnt (s : State) (off : Nat) (w : Word) : (s.busWrite off w).cmdcnt = s.cmdcnt := by
  obtain h | ⟨hb, h⟩ | h | ⟨i, h⟩ | ⟨b, k, h⟩ := busWrite_cases s off w <;> simp [h]

theorem busWrite_rst (s : State) (off : Nat) (w : Word) : (s.busWrite off w).rst = s.rst := by
  obtain h | ⟨hb, h⟩ | h | ⟨i, h⟩ | ⟨b, k, h⟩ := busWrite_cases s off w <;> simp [h]

/-- A bus write records an error only while a command is in flight and no record is held; otherwise it keeps the record. -/
theorem busWrite_record (s : State) (off : Nat) (w : Word) :
    (s.busy = true ∧ s.err = false ∧ s.busWrite off w = s.recordError .busyViolation (opcodeOf s.latch)) ∨
      SameRecord s (s.busWrite off w) := by
  obtain h | ⟨hb, h⟩ | h | ⟨i, h⟩ | ⟨b, k, h⟩ := busWrite_cases s off w
  case inr.inl =>
    cases he : s.err with
    | false => exact .inl ⟨hb, rfl, h⟩
    | true => exact .inr (by simp [SameRecord, h, he])
  all_goals exact .inr (by simp [SameRecord, h])

theorem busWrite_idle_sameRecord {s : State} (hb : s.busy = false) (off : Nat) (w : Word) :
    SameRecord s (s.busWrite off w) := by
  obtain ⟨hbusy, -⟩ | hsame := busWrite_record s off w
  · cases hb.symm.trans hbusy
  · exact hsame

theorem busWrite_cmd (s : State) (w : Word) : s.busWrite 0x008 w = s.offer w := rfl

/-- An ordinary write to a field-typed location starts no command (R47). -/
theorem busWrite_fieldTyped_idle {s : State} {off : Nat} (w : Word)
    (hl : (∃ i, locate off = .field i) ∨ ∃ b k, locate off = .entry b k) (hb : s.busy = false) :
    (s.busWrite off w).busy = false ∧ (s.busWrite off w).latch = s.latch := by
  obtain ⟨i, hl⟩ | ⟨b, k, hl⟩ := hl
  · rw [busWrite_field_idle w hl hb]
    exact ⟨hb, rfl⟩
  · rw [busWrite_entry_idle w hl hb]
    exact ⟨(State.setEntry_busy s b k _).trans hb, State.setEntry_latch s b k _⟩

/-- A host write that answers a next state leaves the core alone, outside the window, or is the window's write with reset
released (R181). -/
theorem hostWrite_next_released {s t : State} {addr : Nat} {size : Size} {enables : BitVec 4} {w : Word}
    (h : s.hostWrite addr size enables w = .next t) : t = s ∨ (s.rst = false ∧ ∃ off, t = s.busWrite off w) := by
  cases hr : s.rst with
  | false => exact (hostWrite_next h).imp_right fun hw => ⟨rfl, hw⟩
  | true =>
    unfold State.hostWrite at h
    split at h
    · cases h
      exact .inl rfl
    · rw [busRefusal_reset hr] at h
      cases h

/-- `t` is `s` but for the host's side of a read. -/
def SameButAnswer (s t : State) : Prop := t = { s with rdata := t.rdata, draws := t.draws }

/-- Everything a moment without a transaction can do (R142, R180, R182). -/
theorem coreMove_next_cases {s t : State} (h : s.coreMove = .next t) :
    t = s ∨ (s.rst = true ∧ t = s.applyReset true) ∨ (s.rst = false ∧ s.busy = true ∧ s.complete = .next t) := by
  unfold State.coreMove at h
  split at h
  · next hr =>
    cases h
    exact .inr (.inl ⟨hr, rfl⟩)
  · next hr =>
    split at h
    · next hb => exact .inr (.inr ⟨by simpa using hr, hb, h⟩)
    · cases h
      exact .inl rfl

/-- With no action left, taking one off changes nothing. -/
theorem afterInput_nil {s : State} (h : s.inputs = []) : afterInput s = s := by
  rw [afterInput, h, List.tail_nil, ← h]

theorem setRst_cases (s : State) (level : Bool) :
    s.setRst level = s ∨ ((level = true ∨ s.rst = true) ∧ s.setRst level = s.applyReset level) := by
  by_cases hact : level = true ∨ s.rst = true
  · exact .inr ⟨hact, setRst_acts hact⟩
  · exact .inl (by simp_all [State.setRst])

/-- What a step that answers a next state can be: at most an answer to the host, a reset, the completion of the word in
flight, or a write in the window. -/
def StepsTo (s t : State) : Prop :=
  SameButAnswer (afterInput s) t ∨
    ((s.rst = true ∨ s.inputs.head? = some (.rst true)) ∧ ∃ level, t = (afterInput s).applyReset level) ∨
    (CompletionNext s ∧ (afterInput s).complete = .next t) ∨
    (s.rst = false ∧ ∃ off w, t = (afterInput s).busWrite off w)

theorem stepsTo_of_coreMove {s t : State} (hnext : s.inputs = [] ∨ s.inputs.head? = some .coreTurn)
    (h : (afterInput s).coreMove = .next t) : StepsTo s t := by
  obtain rfl | ⟨hr, ht⟩ | ⟨hr, hb, hc⟩ := coreMove_next_cases h
  · exact .inl rfl
  · exact .inr (.inl ⟨.inl hr, _, ht⟩)
  · exact .inr (.inr (.inl ⟨⟨hr, hb, hnext⟩, hc⟩))

theorem stepsTo_of_step {s t : State} (h : step s = .next t) : StepsTo s t := by
  cases hin : s.inputs with
  | nil =>
    rw [step_nil hin, ← afterInput_nil hin] at h
    exact stepsTo_of_coreMove (.inl hin) h
  | cons e rest =>
    rw [step_cons hin, ← afterInput_cons hin] at h
    cases e with
    | coreTurn => exact stepsTo_of_coreMove (.inr (by simp [hin])) h
    | read addr size => exact .inl (hostRead_next h)
    | write addr size enables w =>
      obtain rfl | ⟨hr, off, ht⟩ := hostWrite_next_released h
      · exact .inl rfl
      · exact .inr (.inr (.inr ⟨hr, off, w, ht⟩))
    | rst level =>
      cases h
      obtain hsame | ⟨hact, hset⟩ := setRst_cases (afterInput s) level
      · exact .inl (by rw [hsame]; rfl)
      · exact .inr (.inl ⟨hact.symm.imp_right fun hl => by simp [hin, hl], level, hset⟩)

/-! ### Values and buffers stay in form (R20, R21) -/

/-- The part of the invariant about what is stored: canonical values, and buffers in their form. -/
def StoredForm (s : State) : Prop := CanonicalState s ∧ MemoryForm s

theorem canonical_toElem {v : Nat} (h : v ≤ 256) : Canonical (toElem v) := (toElem_toNat (by omega)).trans_le h

theorem canonical_modP (v : Int) : Canonical (toElem (modP v)) := canonical_toElem (Nat.le_of_lt_succ (modP_lt v))

theorem canonical_powmod (b e : Nat) : Canonical (toElem (powmod b e)) :=
  canonical_toElem (Nat.le_of_lt_succ (powmod_lt b e))

theorem StoredForm.getF {s : State} (h : StoredForm s) (i : Reg) : Canonical (s.getF i) := h.1.1 i

/-- A written entry of a state in form is canonical as a number; one never written counts as 0. -/
theorem StoredForm.entryNum_le {s : State} (h : StoredForm s) (b : Buf) (k : Nat) : entryNum s b k ≤ 256 := by
  obtain ⟨⟨-, hentry⟩, -⟩ := h
  unfold entryNum
  cases he : s.entry b k with
  | none => simp
  | some v => exact hentry b k v he

/-- The stored part looks at nothing but the registers and the buffers. -/
theorem StoredForm.congr {s t : State} (h : StoredForm s) (hf : t.f = s.f) (hb : ∀ b, t.buf b = s.buf b) :
    StoredForm t := by
  obtain ⟨⟨hreg, hentry⟩, hmem⟩ := h
  refine ⟨⟨fun i => ?_, fun b k v hv => ?_⟩, fun b => ?_⟩
  · rw [State.getF_congr hf]
    exact hreg i
  · rw [State.entry, hb] at hv
    exact hentry b k v hv
  · rw [hb]
    exact hmem b

theorem State.buf_setF (s : State) (i : Reg) (v : Elem) (b : Buf) : (s.setF i v).buf b = s.buf b := by
  cases b <;> rfl

theorem StoredForm.setF {s : State} (h : StoredForm s) (i : Reg) {v : Elem} (hv : Canonical v) :
    StoredForm (s.setF i v) := by
  obtain ⟨⟨hreg, hentry⟩, hmem⟩ := h
  refine ⟨⟨fun j => ?_, fun b k u hu => ?_⟩, fun b => ?_⟩
  · rw [State.getF_setF]
    split
    · exact hv
    · exact hreg j
  · rw [State.entry_setF] at hu
    exact hentry b k u hu
  · rw [State.buf_setF]
    exact hmem b

theorem StoredForm.setEntry {s : State} (h : StoredForm s) (b : Buf) (k : Idx) {v : Elem} (hv : Canonical v) :
    StoredForm (s.setEntry b k v) := by
  obtain ⟨⟨hreg, hentry⟩, hmem⟩ := h
  refine ⟨⟨fun j => ?_, fun b' k' u hu => ?_⟩, fun b' => State.setEntry_buf_wf s b b' k v k.isLt hmem⟩
  · rw [State.getF_setEntry]
    exact hreg j
  · rw [State.entry_setEntry] at hu
    split at hu
    · cases hu
      exact hv
    · exact hentry b' k' u hu

theorem StoredForm.recordError {s : State} (h : StoredForm s) (e : ErrCode) (op : Opcode) :
    StoredForm (s.recordError e op) :=
  h.congr (State.recordError_f s e op) fun b => by cases b <;> simp [State.buf]

theorem StoredForm.fail {s : State} (h : StoredForm s) (e : ErrCode) (op : Opcode) : StoredForm (s.fail e op) :=
  h.congr (State.fail_f s e op) fun b => by cases b <;> simp [State.buf]

theorem StoredForm.succeed {s : State} (h : StoredForm s) : StoredForm s.succeed :=
  h.congr rfl fun b => by cases b <;> rfl

theorem StoredForm.clearError {s : State} (h : StoredForm s) : StoredForm s.clearError :=
  h.congr rfl fun b => by cases b <;> rfl

theorem StoredForm.horner_coeffs_le {s : State} (h : StoredForm s) (t x : Nat) : horner (coeffs s t) x ≤ 256 := by
  rw [horner_coeffs x fun k _ => h.entryNum_le .c k]
  exact Nat.le_of_lt_succ (polyAt_lt s t x)

/-- SPLIT writes shares 1..n, and values of a polynomial with canonical coefficients. -/
theorem StoredForm.withShares {s : State} (h : StoredForm s) (t : Nat) {n : Nat} (hn : n ≤ 255) :
    StoredForm (withShares s (coeffs s t) n) := by
  have hhorner := h.horner_coeffs_le t
  obtain ⟨⟨hreg, hentry⟩, hmem⟩ := h
  refine ⟨⟨hreg, fun b k v hv => ?_⟩, fun b => ?_⟩
  · cases b with
    | c => exact hentry .c k v hv
    | x =>
      rw [entry_x_withShares] at hv
      split at hv
      · cases hv
        exact canonical_toElem (by omega)
      · exact hentry .x k v hv
    | y =>
      rw [entry_y_withShares] at hv
      split at hv
      · cases hv
        exact canonical_toElem (hhorner _)
      · exact hentry .y k v hv
  · cases b with
    | c => exact hmem .c
    | x => exact Memory.wf_writeFrom 0 _ _ (by simp [splitXs]; omega) (hmem .x)
    | y => exact Memory.wf_writeFrom 0 _ _ (by simp [splitYs]; omega) (hmem .y)

/-! ### How a command ends -/

/-- A command's end: results stored in form and counted without setting ERR, an error other than BUSY_VIOLATION raised, or
a fault. -/
def EndsInForm (s : State) (r : Result) : Prop :=
  (∃ u, (StoredForm s → StoredForm u) ∧ (u.err = true → s.err = true) ∧ r = .next u.succeed) ∨
    (∃ e op, e ≠ .busyViolation ∧ r = s.raise e op) ∨ ∃ q, r = .fault q

theorem endsInForm_finish {s : State} {v : Elem} (hv : StoredForm s → Canonical v) (rd : Reg) :
    EndsInForm s (s.finish rd v) :=
  .inl ⟨s.setF rd v, fun h => h.setF rd (hv h), id, rfl⟩

theorem endsInForm_raise {e : ErrCode} (he : e ≠ .busyViolation) (op : Opcode) (s : State) :
    EndsInForm s (s.raise e op) :=
  .inr (.inl ⟨e, op, he, rfl⟩)

theorem endsInForm_fault (s : State) (q : Fault) : EndsInForm s (.fault q) := .inr (.inr ⟨q, rfl⟩)

theorem endsInForm_loadEntry (s : State) (rd : Reg) (b : Buf) (k : Nat) : EndsInForm s (s.loadEntry rd b k) := by
  obtain ⟨v, hv, h⟩ | ⟨-, h⟩ := loadEntry_cases s rd b k <;> rw [h]
  · exact endsInForm_finish (fun ⟨⟨_, hentry⟩, _⟩ => hentry b k v hv) rd
  · exact endsInForm_fault s _

theorem endsInForm_minv (rd rs1 : Reg) (s : State) : EndsInForm s (exec (.minv rd rs1) s) := by
  by_cases h0 : s.num rs1 = 0
  · rw [exec_minv_zero h0]
    exact endsInForm_raise (by decide) _ s
  · rw [exec_minv_of_pos (by omega)]
    refine endsInForm_finish (fun h => ?_) rd
    obtain ⟨-, hle, -⟩ := inv_spec (a := s.num rs1) (by omega) (h.getF rs1)
    exact canonical_toElem hle

theorem endsInForm_peval (rd rs1 : Reg) (t : Nat) (s : State) : EndsInForm s (exec (.peval rd rs1 t) s) := by
  obtain rfl | ht := Nat.eq_zero_or_pos t
  · rw [exec_peval_zero]
    exact endsInForm_raise (by decide) _ s
  · by_cases hw : CoeffsWritten s t
    · rw [exec_peval_written ht hw]
      exact endsInForm_finish (fun h => canonical_toElem (h.horner_coeffs_le t _)) rd
    · obtain ⟨k, -, -, hfault⟩ := exec_peval_fault ht hw rd rs1
      rw [hfault]
      exact endsInForm_fault s _

theorem endsInForm_split (n t : Nat) (s : State) : EndsInForm s (exec (.split n t) s) := by
  by_cases hok : 1 ≤ t ∧ t ≤ n ∧ n ≤ 255
  · by_cases hw : CoeffsWritten s t
    · exact .inl ⟨withShares s (coeffs s t) n, fun h => h.withShares t hok.2.2, id, exec_split_written hok hw⟩
    · obtain ⟨k, -, -, hfault⟩ := exec_split_fault hok hw
      rw [hfault]
      exact endsInForm_fault s _
  · rw [exec_split_rejected (by omega)]
    exact endsInForm_raise (by decide) _ s

theorem endsInForm_lagr0 (rd : Reg) (base count : Nat) (s : State) :
    EndsInForm s (exec (.lagr0 rd base count) s) := by
  obtain rfl | h1 := Nat.eq_zero_or_pos count
  · rw [exec_lagr0_empty]
    exact endsInForm_raise (by decide) _ s
  · by_cases h2 : base + count ≤ 256
    · by_cases hw : WindowWritten s base count
      · rw [exec_lagr0_written h1 h2 hw]
        split
        · exact endsInForm_finish (fun _ => canonical_toElem (Nat.le_of_lt_succ (windowLagrange_lt s base count))) rd
        · exact endsInForm_raise (by decide) _ s
      · obtain ⟨b, -, j, -, -, hfault⟩ := exec_lagr0_fault h1 h2 hw rd
        rw [hfault]
        exact endsInForm_fault s _
    · rw [exec_lagr0_beyond h1 (by omega)]
      exact endsInForm_raise (by decide) _ s

theorem exec_endsInForm (i : Instr) (s : State) : EndsInForm s (exec i s) := by
  cases i with
  | nop => exact .inl ⟨s, id, id, exec_nop s⟩
  | clrerr => exact .inl ⟨s.clearError, StoredForm.clearError, fun h => absurd h (by simp), exec_clrerr s⟩
  | ldi rd | madd rd | msub rd | mmul rd => exact endsInForm_finish (fun _ => canonical_modP _) rd
  | mpow rd | mpowi rd => exact endsInForm_finish (fun _ => canonical_powmod _ _) rd
  | mov rd rs1 => exact endsInForm_finish (fun h => h.getF rs1) rd
  | minv rd rs1 => exact endsInForm_minv rd rs1 s
  | peval rd rs1 t => exact endsInForm_peval rd rs1 t s
  | split n t => exact endsInForm_split n t s
  | lagr0 rd base count => exact endsInForm_lagr0 rd base count s
  | cst idx rs1 =>
    refine .inl ⟨_, fun h => ?_, fun h => ?_, exec_cst idx rs1 s⟩
    · exact h.setEntry .c idx (h.getF rs1)
    · simpa using h
  | pst idx rs1 rs2 =>
    refine .inl ⟨_, fun h => ?_, fun h => ?_, exec_pst idx rs1 rs2 s⟩
    · exact (h.setEntry .x idx (h.getF rs1)).setEntry .y idx (h.getF rs2)
    · simpa using h
  | cld rd idx => exact endsInForm_loadEntry s rd .c idx
  | pldx rd idx => exact endsInForm_loadEntry s rd .x idx
  | pldy rd idx => exact endsInForm_loadEntry s rd .y idx

theorem complete_endsInForm (s : State) : EndsInForm s s.complete := by
  cases hd : decode s.latch with
  | command i => exact complete_of_command hd ▸ exec_endsInForm i s
  | illegal why => exact complete_of_illegal hd ▸ endsInForm_raise (by decide) _ s

theorem StoredForm.complete {s t : State} (h : StoredForm s) (ht : s.complete = .next t) : StoredForm t := by
  obtain ⟨u, hu, -, hend⟩ | ⟨e, op, -, hend⟩ | ⟨q, hend⟩ := complete_endsInForm s <;> cases hend.symm.trans ht
  · exact (hu h).succeed
  · exact h.fail e op

/-- A command that answers a next state leaves BUSY = 0, and the reset line, the latch and the host's side alone (R142). -/
theorem exec_next_idle {i : Instr} {s t : State} (h : exec i s = .next t) : t.busy = false ∧ SameOutside s t := by
  obtain ⟨⟨-, hb⟩, hout, -⟩ | ⟨e, -, -, -, hout, -, hb, -⟩ := exec_next_cases h
  · exact ⟨hb, hout⟩
  · exact ⟨hb, hout⟩

theorem complete_idle {s t : State} (h : s.complete = .next t) : t.busy = false ∧ SameOutside s t := by
  obtain ⟨i, -, hexec⟩ | ⟨-, -, -, hout, -, hb, -⟩ := complete_next_cases h
  · exact exec_next_idle hexec
  · exact ⟨hb, hout⟩

/-- A completion never records BUSY_VIOLATION: only a host write does (R142, R153). -/
theorem complete_errcode_ne_busyViolation {s t : State} (he : s.err = false) (ht : s.complete = .next t)
    (hte : t.err = true) : t.errcode ≠ .busyViolation := by
  obtain ⟨u, -, hu, hend⟩ | ⟨e, op, hne, hend⟩ | ⟨q, hend⟩ := complete_endsInForm s <;> cases hend.symm.trans ht
  · exact absurd (hu hte) (by simp [he])
  · simpa [he] using hne

/-! ### The error record stays in form (R27, R28) -/

theorem errorRecordForm_of_sameRecord {s t : State} (h : ErrorRecordForm s) (ht : SameRecord s t) :
    ErrorRecordForm t := by
  obtain ⟨herr, hcode, hop⟩ := ht
  unfold ErrorRecordForm
  rwa [herr, hcode, hop]

theorem errorRecordForm_of_cleared {t : State} (h1 : t.err = false) (h2 : t.errcode = .none) (h3 : t.errop = 0#6) :
    ErrorRecordForm t := ⟨by simp [h1, h2], fun _ => h3⟩

theorem errorRecordForm_of_recorded {t : State} (h1 : t.err = true) (h2 : t.errcode ≠ .none) : ErrorRecordForm t :=
  ⟨by simp [h1, h2], by simp [h1]⟩

theorem errorRecordForm_of_failedWith {s t : State} {e : ErrCode} {op : Opcode} (h : ErrorRecordForm s)
    (he : e ≠ .none) (ht : FailedWith e op s t) : ErrorRecordForm t := by
  obtain ⟨-, -, -, -, -, hheld, hfirst⟩ := ht
  cases hs : s.err with
  | true => exact errorRecordForm_of_sameRecord h (hheld hs)
  | false =>
    obtain ⟨h1, rfl, -⟩ := hfirst hs
    exact errorRecordForm_of_recorded h1 he

theorem errorRecordForm_complete {s t : State} (h : ErrorRecordForm s) (ht : s.complete = .next t) :
    ErrorRecordForm t := by
  obtain ⟨-, -, hrecord⟩ | ⟨e, he, hfail⟩ := complete_counts_or_fails ht
  · split at hrecord
    · obtain ⟨h1, h2, h3⟩ := hrecord
      exact errorRecordForm_of_cleared h1 h2 h3
    · exact errorRecordForm_of_sameRecord h hrecord
  · exact errorRecordForm_of_failedWith h he hfail

/-! ### The invariant -/

theorem inv_iff (s : State) : Inv s ↔ StoredForm s ∧ ErrorRecordForm s ∧ ResetHeld s := and_assoc.symm

/-- The invariant does not look at the host's side. -/
theorem inv_hostSide {s : State} (h : Inv s) (inputs : List Event) (rdata : Word) (draws : Nat) :
    Inv { s with inputs := inputs, rdata := rdata, draws := draws } := by
  obtain ⟨hstored, hrecord, hreset⟩ := (inv_iff s).mp h
  refine (inv_iff _).mpr ⟨hstored.congr rfl fun b => by cases b <;> rfl, hrecord, fun hr => ?_⟩
  rw [hreset hr]
  rfl

theorem inv_applyReset (s : State) (level : Bool) : Inv (s.applyReset level) := by
  refine (inv_iff _).mpr ⟨⟨⟨fun i => ?_, fun b k v hv => ?_⟩, fun b => ?_⟩, errorRecordForm_of_cleared rfl rfl rfl,
    fun hr => ?_⟩
  · rw [State.getF_applyReset]
    exact Nat.zero_le _
  · simp at hv
  · cases b <;> rfl
  · obtain rfl : level = true := hr
    rfl

/-- Reset released, the invariant is about what is stored and the record alone. -/
theorem inv_of_released {s : State} (hr : s.rst = false) (hstored : StoredForm s) (hrecord : ErrorRecordForm s) :
    Inv s := (inv_iff s).mpr ⟨hstored, hrecord, by simp [ResetHeld, hr]⟩

theorem inv_complete {s t : State} (h : Inv s) (hr : s.rst = false) (ht : s.complete = .next t) : Inv t := by
  obtain ⟨hstored, hrecord, -⟩ := (inv_iff s).mp h
  obtain ⟨-, hrst, -⟩ := complete_idle ht
  exact inv_of_released (hrst.trans hr) (hstored.complete ht) (errorRecordForm_complete hrecord ht)

theorem StoredForm.busWrite {s : State} (h : StoredForm s) (off : Nat) (w : Word) : StoredForm (s.busWrite off w) := by
  obtain hw | ⟨-, hw⟩ | hw | ⟨i, hw⟩ | ⟨b, k, hw⟩ := busWrite_cases s off w <;> rw [hw]
  · exact h
  · exact h.recordError _ _
  · exact h.congr rfl fun b => by cases b <;> rfl
  · exact h.setF i (canonical_modP _)
  · exact h.setEntry b k (canonical_modP _)

theorem inv_busWrite {s : State} (h : Inv s) (hr : s.rst = false) (off : Nat) (w : Word) :
    Inv (s.busWrite off w) := by
  obtain ⟨hstored, hrecord, -⟩ := (inv_iff s).mp h
  refine inv_of_released ((busWrite_rst s off w).trans hr) (hstored.busWrite off w) ?_
  obtain ⟨-, he, hw⟩ | hsame := busWrite_record s off w
  · rw [hw]
    exact errorRecordForm_of_recorded (by simp) (by simp [he])
  · exact errorRecordForm_of_sameRecord hrecord hsame

/-! ### The statements -/

/-- Settles O56: a step answers the host, resets, completes the word in flight or writes in the window, and each of these
keeps the invariant. -/
theorem stepKeepsInvariant : Obligations.StepKeepsInvariant := by
  intro s t h ht
  have hafter : Inv (afterInput s) := inv_hostSide h s.inputs.tail s.rdata s.draws
  obtain hsame | ⟨-, level, rfl⟩ | ⟨⟨hr, -, -⟩, hc⟩ | ⟨hr, off, w, rfl⟩ := stepsTo_of_step ht
  · rw [hsame]
    exact inv_hostSide hafter s.inputs.tail t.rdata t.draws
  · exact inv_applyReset _ level
  · exact inv_complete hafter hr hc
  · exact inv_busWrite hafter hr off w

/-- Settles O57: the reset state is what reset makes of itself. -/
theorem resetMeetsInvariant : Obligations.ResetMeetsInvariant := inv_applyReset State.reset false

/-- Settles O43: of what a step can do, only a reset and CLRERR's completion touch a held record. -/
theorem onlyClrerrOrResetClearsErr : Obligations.OnlyClrerrOrResetClearsErr := by
  intro s t he ht
  obtain hsame | ⟨hreset, -⟩ | ⟨hnext, hc⟩ | ⟨-, off, w, rfl⟩ := stepsTo_of_step ht
  · rw [hsame]
    exact .inl ⟨rfl, rfl, rfl⟩
  · exact .inr (.inr hreset)
  · by_cases hl : s.latch = 0xFC000000#32
    · exact .inr (.inl ⟨hnext, hl⟩)
    · exact .inl (complete_sameRecord_of_err (s := afterInput s) he hl hc)
  · obtain ⟨-, hfree, -⟩ | hsame := busWrite_record (afterInput s) off w
    · cases hfree.symm.trans he
    · exact .inl hsame

/-- Settles O44: of what a step can do without reset, only a completion touches CMDCNT, and only one that succeeds. -/
theorem cmdcntCountsSuccesses : Obligations.CmdcntCountsSuccesses := by
  intro s t ht hr hin
  obtain hsame | ⟨hreset, -⟩ | ⟨hnext, hc⟩ | ⟨-, off, w, rfl⟩ := stepsTo_of_step ht
  · rw [hsame]
    exact .inl rfl
  · exact absurd hreset (by simp [hr, hin])
  · obtain hcommand | ⟨-, -, -, -, hcount, -⟩ := complete_next_cases hc
    · obtain ⟨⟨hcount, -⟩, -, hrecord⟩ | ⟨e, -, -, -, -, hcount, -⟩ := complete_counts_or_fails hc
      · refine .inr ⟨hnext, hcommand, hcount, ?_⟩
        split at hrecord
        · next hl => exact .inr hl
        · exact .inl hrecord
      · exact .inl hcount
    · exact .inl hcount
  · exact .inl (busWrite_cmdcnt (afterInput s) off w)

/-- Settles O36: the step is the completion, by the word in the latch. -/
theorem stepRunsDecodedCommand : Obligations.StepRunsDecodedCommand := by
  intro s hnext
  rw [step_completion hnext]
  exact ⟨fun i hd => complete_of_command (s := afterInput s) hd, fun why hd => complete_of_illegal (s := afterInput s) hd⟩

/-- Settles O42: a write before the completion finds BUSY = 1 and leaves a record the completion keeps; a write after it
finds an idle core, and the completion itself never records BUSY_VIOLATION. -/
theorem writeAndCompletionOrders : Obligations.WriteAndCompletionOrders := by
  intro s off w rest hr hb he hl ho ha hoff
  refine ⟨fun hin t u ht hu => ?_, fun hin t u ht hu => ?_⟩
  · obtain ⟨hviolation, -, hkept⟩ := busyWriteIsViolation
    obtain ⟨hrecorded, -⟩ := (hviolation s off w _ hin hr hb ho ha).1 hoff
    cases (hrecorded he).symm.trans ht
    have hnext : CompletionNext { s with
        inputs := .coreTurn :: rest, err := true, errcode := .busyViolation, errop := opcodeOf s.latch } :=
      ⟨hr, hb, .inr rfl⟩
    obtain ⟨herr, hcode, hop⟩ := hkept _ u hnext rfl hl hu
    exact ⟨herr, hcode, hop, (complete_idle ((step_completion hnext).symm.trans hu)).1⟩
  · rw [step_completion ⟨hr, hb, .inr (by simp [hin])⟩] at ht
    obtain ⟨hidle, hrst, hlatch, hinputs, -⟩ := complete_idle ht
    have htin : t.inputs = hostWr off w :: rest := by rw [hinputs, afterInput_cons hin]
    rw [step_hostWr htin (hrst.trans hr) ho ha] at hu
    cases hu
    refine ⟨hidle, complete_errcode_ne_busyViolation (s := afterInput s) he ht, ?_, fun hcmd hacc => ?_, fun hne => ?_⟩
    · exact busWrite_idle_sameRecord (s := { t with inputs := rest }) hidle off w
    · subst hcmd
      rw [busWrite_cmd, offer_accepted (s := { t with inputs := rest }) hidle hacc]
      exact ⟨rfl, rfl⟩
    · obtain ⟨hbusy, hsame⟩ := busWrite_fieldTyped_idle (s := { t with inputs := rest }) w
        (locate_fieldTyped (hoff.resolve_left hne)) hidle
      exact ⟨hbusy, hsame.trans hlatch⟩

end Sys2Proof.Machine
end

section
/-! PROOFS. The bus once more: the layout of STATUS (R24), the read column of the address map (R45), and the accesses the
core does not define (R43, R44) or does not see (R40). -/

namespace Sys2Proof.Machine

/-! ### STATUS (R24) -/

/-- STATUS bit by bit. -/
theorem statusWord_getLsbD (s : State) (i : Nat) : s.statusWord.getLsbD i =
    if i < 1 then s.busy else if i < 2 then s.err else if i < 4 then false
    else if i < 8 then s.errcode.code.getLsbD (i - 4) else if i < 14 then s.errop.getLsbD (i - 8) else false := by
  have hsub (a b : Nat) (hb : 0 < b) : i - a < b ↔ i < a + b := by omega
  change (0#18 ++ s.errop ++ s.errcode.code ++ 0#2 ++ BitVec.ofBool s.err ++ BitVec.ofBool s.busy).getLsbD i = _
  simp only [BitVec.getLsbD_append, BitVec.getLsbD_zero, BitVec.getLsbD_ofBool, Nat.sub_sub]
  simp only [hsub, Nat.reduceLT, Nat.reduceAdd]
  split_ifs
  · simp [show i = 0 by omega]
  · simp [show i = 1 by omega]
  all_goals rfl

theorem statusWord_errcode (s : State) : s.statusWord.extractLsb' 4 4 = s.errcode.code := by
  refine BitVec.eq_of_getLsbD_eq fun i hi => ?_
  simp only [BitVec.getLsbD_extractLsb', statusWord_getLsbD, hi, decide_true, Bool.true_and]
  rw [if_neg (by omega), if_neg (by omega), if_neg (by omega), if_pos (by omega), Nat.add_sub_cancel_left]

theorem statusWord_errop (s : State) : s.statusWord.extractLsb' 8 6 = s.errop := by
  refine BitVec.eq_of_getLsbD_eq fun i hi => ?_
  simp only [BitVec.getLsbD_extractLsb', statusWord_getLsbD, hi, decide_true, Bool.true_and]
  rw [if_neg (by omega), if_neg (by omega), if_neg (by omega), if_neg (by omega), if_pos (by omega),
    Nat.add_sub_cancel_left]

/-- The bits of STATUS between ERR and ERRCODE, and those above ERROP, are 0. -/
theorem statusWord_unused (s : State) :
    s.statusWord.extractLsb' 2 2 = 0#2 ∧ s.statusWord.extractLsb' 14 18 = 0#18 := by
  constructor <;> refine BitVec.eq_of_getLsbD_eq fun i hi => ?_ <;>
    simp only [BitVec.getLsbD_extractLsb', statusWord_getLsbD, hi, decide_true, Bool.true_and, BitVec.getLsbD_zero]
  · rw [if_neg (by omega), if_neg (by omega), if_pos (by omega)]
  · rw [if_neg (by omega), if_neg (by omega), if_neg (by omega), if_neg (by omega), if_neg (by omega)]

/-- No error code is above 6 (R27). -/
theorem ErrCode.code_le (e : ErrCode) : e.code.toNat ≤ 6 := by cases e <;> decide

/-! ### Accesses the core does not define (R43, R44) -/

theorem busRefusal_subWord {s : State} {size : Size} {enables : BitVec 4} (hr : s.rst = false)
    (h : size ≠ .word ∨ enables ≠ 0xF#4) (off : Nat) : s.busRefusal off size enables = some .subWordAccess := by
  simp [State.busRefusal, hr, h]

theorem busRefusal_misaligned {s : State} {off : Nat} (hr : s.rst = false) (h : off % 4 ≠ 0) :
    s.busRefusal off .word 0xF#4 = some .misalignedAccess := by
  simp [State.busRefusal, hr, h]

/-- A step over a read of the window that has a refusal is refused. -/
theorem step_read_refused {s : State} {off : Nat} {size : Size} {rest : List Event} {r : Refusal}
    (h : s.inputs = .read (Config.base + off) size :: rest) (ho : off < 4096)
    (href : s.busRefusal off size 0xF#4 = some r) : step s = .refused r := by
  rw [step_cons h]
  have href' : State.busRefusal { s with inputs := rest } off size 0xF#4 = some r := href
  simp [State.act, State.hostRead, busOffset_base off ho, href']

/-- A step over a write in the window that has a refusal is refused. -/
theorem step_write_refused {s : State} {off : Nat} {size : Size} {enables : BitVec 4} {w : Word} {rest : List Event}
    {r : Refusal} (h : s.inputs = .write (Config.base + off) size enables w :: rest) (ho : off < 4096)
    (href : s.busRefusal off size enables = some r) : step s = .refused r := by
  rw [step_cons h]
  have href' : State.busRefusal { s with inputs := rest } off size enables = some r := href
  simp [State.act, State.hostWrite, busOffset_base off ho, href']

/-! ### The statements -/

/-- Settles O45: the fields of STATUS are the parts of its word, and the map ignores a write to it. -/
theorem statusLayout : Obligations.StatusLayout := by
  refine ⟨fun s rest hin hr => ?_, fun s w rest hin hr => ?_⟩
  · obtain ⟨hlow, hhigh⟩ := statusWord_unused s
    exact ⟨_, (step_hostRd hin hr (by decide) (by decide)).trans (busRead_status locate_status), rfl,
      statusWord_getLsbD s 0, statusWord_getLsbD s 1, hlow, statusWord_errcode s,
      (congrArg BitVec.toNat (statusWord_errcode s)).trans_le s.errcode.code_le, statusWord_errop s, hhigh⟩
  · rw [step_hostWr hin hr (by decide) (by decide), busWrite_ignored w (.inr (.inl locate_status))]

/-- Settles O47: the map names what stands at the offset, and an idle core answers its value; an entry never written has
none. -/
theorem readsFollowAddressMap : Obligations.ReadsFollowAddressMap := by
  intro s off rest hin hr hb
  refine ⟨?_, ?_, fun i hoff => ?_, fun b k hoff => ?_⟩
  · rintro rfl
    exact (step_hostRd hin hr (by decide) (by decide)).trans (busRead_cmd locate_cmd)
  · rintro rfl
    exact (step_hostRd hin hr (by decide) (by decide)).trans (busRead_cmdcnt locate_cmdcnt)
  · have hi := i.isLt
    exact (step_hostRd hin hr (by omega) (by omega)).trans (busRead_field_idle (locate_field hoff) hb)
  · have hk := k.isLt
    rw [step_hostRd hin hr (by omega) (by omega)]
    exact ⟨fun v hv => busRead_entry_idle (s := { s with inputs := rest }) (locate_entry hoff) hb hv,
      fun hv => busRead_entry_unwritten (s := { s with inputs := rest }) (locate_entry hoff) hb hv⟩

/-- Settles O51: the refusal looks at the reset line, then at width and enables, then at alignment. -/
theorem malformedAccessRefused : Obligations.MalformedAccessRefused := by
  refine ⟨fun s off w rest hr ho ha => ⟨fun hin => ?_, fun hin => ?_⟩,
    fun s off size enables w rest hr ho => ⟨fun hin hsize => ?_, fun hin hform => ?_⟩⟩
  · exact step_read_refused hin ho (busRefusal_misaligned hr ha)
  · exact step_write_refused hin ho (busRefusal_misaligned hr ha)
  · exact step_read_refused hin ho (busRefusal_subWord hr (.inl hsize) off)
  · exact step_write_refused hin ho (busRefusal_subWord hr hform off)

/-- Settles O52: outside the window an access has no offset, and the core does not see it. -/
theorem outsideWindowUntouched : Obligations.OutsideWindowUntouched := by
  intro s addr size enables w rest hout
  refine ⟨fun hin => ?_, fun hin => ?_⟩
  · rw [step_cons hin]
    simp [State.act, State.hostRead, busOffset_outside addr hout]
  · rw [step_cons hin]
    simp [State.act, State.hostWrite, busOffset_outside addr hout]

end Sys2Proof.Machine
end

section
/-! PROOFS. Laws that join several commands: division and the undo laws (R81; 95_test_vectors.md section 4), the
pseudo-instructions (R70), and sharing a secret and joining it back (R102, R110, R113, R114). -/

namespace Sys2Proof.Machine

/-! ### Arithmetic -/

/-- The inverse of a canonical number is its power by 255 (R90). -/
theorem pow_255_mod_eq_inv {a : Nat} (h1 : 1 ≤ a) (h2 : a ≤ 256) : a ^ 255 % 257 = inv a := by
  refine inv_unique h1 h2 (by omega) ?_
  rw [Nat.mul_mod_mod, ← pow_succ', pow_256_mod_eq_one h1 h2]

/-- The quotient by the inverse, times the divisor, is the dividend (R81). -/
theorem quotient_mul_divisor {a b : Nat} (ha : a ≤ 256) (h1 : 1 ≤ b) (h2 : b ≤ 256) :
    a * inv b % 257 * b % 257 = a := by
  obtain ⟨-, -, hinv⟩ := inv_spec h1 h2
  rw [Nat.mod_mul_mod, mul_assoc, mul_comm (inv b), ← Nat.mul_mod_mod, hinv, mul_one, Nat.mod_eq_of_lt (by omega)]

theorem exec_madd_next (rd rs1 rs2 : Reg) (s : State) : ∃ t, exec (.madd rd rs1 rs2) s = .next t ∧
    (t.getF rd).toNat = (s.num rs1 + s.num rs2) % 257 ∧ WroteOnlyF rd s t := maddAddsModP.2 rd rs1 rs2 s

theorem exec_msub_next (rd rs1 rs2 : Reg) (s : State) : ∃ t, exec (.msub rd rs1 rs2) s = .next t ∧
    ((t.getF rd).toNat : Int) = ((s.num rs1 : Int) - s.num rs2) % 257 := by
  obtain ⟨t, ht, hval, -⟩ := msubSubtractsModP.2 rd rs1 rs2 s
  exact ⟨t, ht, hval⟩

/-- Settles O12: MINV leaves the divisor's inverse in the temporary and the dividend as it was. -/
theorem divisionByInverse : Obligations.DivisionByInverse := by
  intro fd fa fb ft s hne
  refine ⟨fun h0 => (minvInvertsOrRaises.2 ft fb s).1 h0, fun h1 h2 ha => ?_⟩
  obtain ⟨t, ht, hinv, hframe⟩ := exec_minv_next h1 h2 ft
  obtain ⟨u, hu, hquot, -⟩ := exec_mmul_next fd fa ft t
  have hval : (u.getF fd).toNat = s.num fa * inv (s.num fb) % 257 := by
    rw [hquot, num_of_wroteOnlyF hframe hne.symm, ← hinv]
    rfl
  refine ⟨t, u, ht, hu, ?_, ?_⟩
  · omega
  · rw [hval, quotient_mul_divisor ha h1 h2]

/-- Settles O16: the sum less its operand is the residue a canonical number is; and the power by 255 is the inverse. -/
theorem arithmeticUndoLaws : Obligations.ArithmeticUndoLaws := by
  refine ⟨fun r1 r2 ra rb s hcanon hne => ?_, fun rd rs s h1 h2 => ?_⟩
  · obtain ⟨t, ht, hsum, hframe⟩ := exec_madd_next r1 ra rb s
    obtain ⟨u, hu, hdiff⟩ := exec_msub_next r2 r1 rb t
    have hnum : t.num r1 = (s.num ra + s.num rb) % 257 := hsum
    have ha : s.num ra ≤ 256 := hcanon
    refine ⟨t, u, ht, hu, BitVec.eq_of_toNat_eq (?_ : (u.getF r2).toNat = s.num ra)⟩
    rw [hnum, num_of_wroteOnlyF hframe hne.symm] at hdiff
    omega
  · rw [exec_mpowi, exec_minv_of_pos h1, pow_255_mod_eq_inv h1 h2]

/-- Settles O17: the expansions are read off, and their commands' values follow from MMUL, LDI and MSUB. -/
theorem pseudoInstructionsCompute : Obligations.PseudoInstructionsCompute := by
  intro fd fs fa fb ft s
  obtain ⟨t, ht, hzero, hframe⟩ := finish_next s fd (toElem (0 % 257))
  have hldi : exec (.ldi fd 0) s = .next t := (exec_ldi fd 0 s).trans ht
  refine ⟨⟨rfl, ?_⟩, ⟨rfl, t, hldi, hzero⟩, fun heq => if_pos heq, fun hne => ⟨if_neg hne, ?_⟩, fun heq => if_pos heq,
    fun hne => if_neg hne⟩
  · obtain ⟨u, hu, hval, -⟩ := exec_mmul_next fd fs fs s
    exact ⟨u, hu, by rw [hval, sq]⟩
  · obtain ⟨u, hu, hval⟩ := exec_msub_next fd fd fs t
    refine ⟨t, u, hldi, hu, ?_⟩
    have hnum : t.num fd = 0 := congrArg BitVec.toNat hzero
    rw [hval, hnum, num_of_wroteOnlyF hframe (Ne.symm hne), Nat.cast_zero, zero_sub]

/-! ### Sharing and joining -/

/-- Settles O21: both evaluate `horner` of the same coefficients at i. -/
theorem pevalAgreesWithSplit : Obligations.PevalAgreesWithSplit := by
  intro rd rs1 n t i s h1 htn hn hw hi hin hx
  obtain ⟨v, hv, hval, -⟩ := finish_next s rd (toElem (horner (coeffs s t) (s.num rs1)))
  refine ⟨_, v, exec_split_written ⟨h1, htn, hn⟩ hw, (exec_peval_written h1 hw rd rs1).trans hv, ?_⟩
  rw [State.entry_succeed, entry_y_withShares, if_pos (by omega), Nat.sub_add_cancel hi, hval, hx]

theorem entryNum_of_entry {s : State} {b : Buf} {k : Nat} {v : Elem} (h : s.entry b k = some v) :
    entryNum s b k = v.toNat := by
  simp [entryNum, h]

/-- Settles O26: SPLIT leaves pairs of one polynomial of t coefficients at distinct points, which determine its constant
term. -/
theorem splitThenJoinRecoversSecret : Obligations.SplitThenJoinRecoversSecret := by
  intro rd n t base count s h1 htn hn htc hbase hw hcanon
  obtain ⟨u, hu, hshares, -⟩ := (splitWritesShares.2 n t s).2.1 h1 htn hn hw hcanon
  have hx : ∀ j < count, u.entry .x (base + j) = some (BitVec.ofNat 9 (base + j + 1)) := fun j hj =>
    (hshares (base + j + 1) (by omega) (by omega)).1
  have hy : ∀ j < count, u.entry .y (base + j) = some (BitVec.ofNat 9 (polyAt s t (base + j + 1))) := fun j hj =>
    (hshares (base + j + 1) (by omega) (by omega)).2
  have hxnum : ∀ j < count, entryNum u .x (base + j) = base + j + 1 := fun j hj => by
    rw [entryNum_of_entry (hx j hj)]
    exact toElem_toNat (by omega)
  have hynum : ∀ j < count, entryNum u .y (base + j) = polyAt s t (base + j + 1) := fun j hj => by
    rw [entryNum_of_entry (hy j hj)]
    exact toElem_toNat ((polyAt_lt _ _ _).trans (by decide))
  have hdistinct : DistinctXs u base count := fun i hi j hj hij => by
    rw [hxnum i hi, hxnum j hj] at hij
    omega
  obtain ⟨v, hv, hval, -⟩ := enoughSharesGiveConstantTerm.1 rd base count t (entryNum s .c) u h1 htc (by omega)
    (hcanon 0 h1) (fun j hj => by simp [hx j hj, hy j hj]) hdistinct
    fun j hj => ⟨by rw [hxnum j hj]; omega, by rw [hxnum j hj, hynum j hj]; rfl⟩
  obtain ⟨c, hc⟩ := Option.ne_none_iff_exists'.mp (hw 0 h1)
  refine ⟨u, v, hu, hv, ?_⟩
  rw [hc, BitVec.eq_of_toNat_eq (hval.trans (entryNum_of_entry hc))]

/-- The pairs of the window of `s'` are those of `s`, taken in the order `σ`. -/
def WindowPermuted (s s' : State) (base : Nat) {count : Nat} (σ : Equiv.Perm (Fin count)) : Prop :=
  ∀ j : Fin count, s'.entry .x (base + j) = s.entry .x (base + σ j) ∧ s'.entry .y (base + j) = s.entry .y (base + σ j)

section
variable {s s' : State} {base count : Nat} {σ : Equiv.Perm (Fin count)} (h : WindowPermuted s s' base σ)
include h

theorem WindowPermuted.entryNum_eq (j : Fin count) :
    entryNum s' .x (base + j) = entryNum s .x (base + σ j) ∧ entryNum s' .y (base + j) = entryNum s .y (base + σ j) := by
  obtain ⟨hx, hy⟩ := h j
  simp [entryNum, hx, hy]

theorem WindowPermuted.windowResidue_eq (j : Fin count) :
    windowResidue s' .x base j = windowResidue s .x base (σ j) ∧
      windowResidue s' .y base j = windowResidue s .y base (σ j) := by
  obtain ⟨hx, hy⟩ := h.entryNum_eq j
  exact ⟨congrArg Nat.cast hx, congrArg Nat.cast hy⟩

theorem WindowPermuted.windowWritten (hw : WindowWritten s base count) : WindowWritten s' base count := by
  intro j hj
  obtain ⟨hx, hy⟩ := h ⟨j, hj⟩
  rw [hx, hy]
  exact hw _ (σ ⟨j, hj⟩).isLt

theorem WindowPermuted.distinctXs (hd : DistinctXs s base count) : DistinctXs s' base count := by
  intro i hi j hj hij
  rw [(h.entryNum_eq ⟨i, hi⟩).1, (h.entryNum_eq ⟨j, hj⟩).1] at hij
  have hσ := hd _ (σ ⟨i, hi⟩).isLt _ (σ ⟨j, hj⟩).isLt hij
  exact congrArg Fin.val (σ.injective (Fin.ext hσ))

/-- The polynomial through the pairs of one order goes through those of the other, so it is that order's too. -/
theorem WindowPermuted.lagrangeSum_eq (hd : DistinctXs s base count)
    (hx : ∀ j < count, entryNum s .x (base + j) ≤ 256) (hx' : ∀ j < count, entryNum s' .x (base + j) ≤ 256) :
    lagrangeSum s' base count = lagrangeSum s base count := by
  have : Fact (Nat.Prime 257) := ⟨prime_P⟩
  rw [lagrangeSum_eq_eval_interpolate, lagrangeSum_eq_eval_interpolate]
  refine congrArg (Polynomial.eval 0) (Lagrange.eq_interpolate_of_eval_eq _
    (windowResidue_injOn (h.distinctXs hd) hx') ?_ fun j hj => ?_).symm
  · exact Lagrange.degree_interpolate_lt _ (windowResidue_injOn hd hx)
  · have hj' : j < count := Finset.mem_range.mp hj
    obtain ⟨hxj, hyj⟩ := h.windowResidue_eq ⟨j, hj'⟩
    rw [hxj, hyj]
    exact Lagrange.eval_interpolate_at_node _ (windowResidue_injOn hd hx) (Finset.mem_range.mpr (σ ⟨j, hj'⟩).isLt)

end

/-- Settles O27: LAGR0's value is the interpolating polynomial's, which does not depend on the order of the pairs. -/
theorem joinIgnoresPairOrder : Obligations.JoinIgnoresPairOrder := by
  intro rd base count σ s s' h1 h2 hw hd hx hperm
  have hp : WindowPermuted s s' base σ := hperm
  have hd' := hp.distinctXs hd
  have hx' : ∀ j < count, entryNum s' .x (base + j) ≤ 256 := fun j hj => by
    rw [(hp.entryNum_eq ⟨j, hj⟩).1]
    exact hx _ (σ ⟨j, hj⟩).isLt
  obtain ⟨u, hu, hval, -⟩ := exec_lagr0_next h1 h2 hw hd rd
  obtain ⟨u', hu', hval', -⟩ := exec_lagr0_next h1 h2 (hp.windowWritten hw) hd' rd
  refine ⟨u, u', hu, hu', BitVec.eq_of_toNat_eq ?_⟩
  rw [hval, hval']
  refine eq_of_cast_zmod (windowLagrange_lt s' base count) (windowLagrange_lt s base count) ?_
  rw [windowLagrange_cast hd' hx', windowLagrange_cast hd hx, hp.lagrangeSum_eq hd hx hx']

end Sys2Proof.Machine
end

section
/-! PROOFS. The entries a command reads (R183): it completes exactly when they have been written (R35), and what it writes
depends on them and the registers alone (R41, R101, R110). -/

namespace Sys2Proof.Machine

/-! ### The entries a command reads -/

theorem forall_mem_runOf {b : Buf} {k n : Nat} {P : Buf × Nat → Prop} :
    (∀ p ∈ runOf b k n, P p) ↔ ∀ j < n, P (b, k + j) := by
  simp only [runOf, List.forall_mem_map, List.mem_range'_1]
  exact ⟨fun h j hj => h _ (by omega), fun h i hi => by
    obtain ⟨j, rfl⟩ := Nat.exists_eq_add_of_le hi.1
    exact h j (by omega)⟩

theorem forall_reads_peval {rd rs1 : Reg} {t : Nat} {P : Buf × Nat → Prop} :
    (∀ p ∈ (Instr.peval rd rs1 t).reads, P p) ↔ ∀ k < t, P (.c, k) := by
  simp only [Instr.reads, forall_mem_runOf, Nat.zero_add]

theorem forall_reads_split {n t : Nat} {P : Buf × Nat → Prop} (h : 1 ≤ t ∧ t ≤ n ∧ n ≤ 255) :
    (∀ p ∈ (Instr.split n t).reads, P p) ↔ ∀ k < t, P (.c, k) := by
  simp only [Instr.reads, if_pos h, forall_mem_runOf, Nat.zero_add]

theorem forall_reads_lagr0 {rd : Reg} {base count : Nat} {P : Buf × Nat → Prop} (h1 : 1 ≤ count)
    (h2 : base + count ≤ 256) : (∀ p ∈ (Instr.lagr0 rd base count).reads, P p) ↔
      ∀ j < count, P (.x, base + j) ∧ P (.y, base + j) := by
  simp only [Instr.reads, if_pos (And.intro h1 h2), List.forall_mem_append, forall_mem_runOf, ← forall₂_and]

/-! ### Completion or fault (R35) -/

/-- What `CommandRunsIffReadsWritten` says of one command, but for what a completion leaves unchanged. -/
def RunsIffReadsWritten (i : Instr) (s : State) : Prop :=
  (ReadsWritten i s → ∃ t, exec i s = .next t) ∧
    (¬ ReadsWritten i s → ∃ b k, (b, k) ∈ i.reads ∧ s.entry b k = none ∧ exec i s = .fault (.unwrittenEntry b k))

/-- A command that reads no entry and completes. -/
theorem runs_of_reads_nil {i : Instr} {s t : State} (hreads : i.reads = []) (ht : exec i s = .next t) :
    RunsIffReadsWritten i s :=
  ⟨fun _ => ⟨t, ht⟩, fun h => absurd (by simp [ReadsWritten, hreads]) h⟩

/-- A command that reads one entry into a register. -/
theorem runs_of_loadEntry {i : Instr} {rd : Reg} {b : Buf} {k : Nat} (hreads : i.reads = [(b, k)]) {s : State}
    (hexec : exec i s = s.loadEntry rd b k) : RunsIffReadsWritten i s := by
  simp only [RunsIffReadsWritten, ReadsWritten, hreads, hexec, List.forall_mem_singleton]
  refine ⟨fun hw => ?_, fun hw => ⟨b, k, by simp, not_not.mp hw, loadEntry_fault (not_not.mp hw) rd⟩⟩
  obtain ⟨v, hv⟩ := Option.ne_none_iff_exists'.mp hw
  obtain ⟨t, ht, -⟩ := loadEntry_next hv rd
  exact ⟨t, ht⟩

theorem runs_minv (rd rs1 : Reg) (s : State) : RunsIffReadsWritten (.minv rd rs1) s := by
  by_cases h0 : s.num rs1 = 0
  · exact runs_of_reads_nil rfl (exec_minv_zero h0 rd)
  · exact runs_of_reads_nil rfl (exec_minv_of_pos (by omega) rd)

/-- An entry with every property that all entries of a command have is one of them. -/
theorem mem_reads_of_forall {i : Instr} {q : Buf × Nat} (h : ∀ P : Buf × Nat → Prop, (∀ p ∈ i.reads, P p) → P q) :
    q ∈ i.reads := h (· ∈ i.reads) fun _ => id

theorem runs_peval (rd rs1 : Reg) (t : Nat) (s : State) : RunsIffReadsWritten (.peval rd rs1 t) s := by
  obtain rfl | h1 := Nat.eq_zero_or_pos t
  · exact runs_of_reads_nil rfl (exec_peval_zero rd rs1 s)
  · refine ⟨fun hw => ⟨_, exec_peval_written h1 (forall_reads_peval.mp hw) rd rs1⟩, fun hw => ?_⟩
    obtain ⟨k, hk, hnone, hfault⟩ := exec_peval_fault h1 (forall_reads_peval.not.mp hw) rd rs1
    exact ⟨.c, k, mem_reads_of_forall fun P hP => forall_reads_peval.mp hP k hk, hnone, hfault⟩

theorem runs_split (n t : Nat) (s : State) : RunsIffReadsWritten (.split n t) s := by
  by_cases hok : 1 ≤ t ∧ t ≤ n ∧ n ≤ 255
  · refine ⟨fun hw => ⟨_, exec_split_written hok ((forall_reads_split hok).mp hw)⟩, fun hw => ?_⟩
    obtain ⟨k, hk, hnone, hfault⟩ := exec_split_fault hok ((forall_reads_split hok).not.mp hw)
    exact ⟨.c, k, mem_reads_of_forall fun P hP => (forall_reads_split hok).mp hP k hk, hnone, hfault⟩
  · exact runs_of_reads_nil (if_neg hok) (exec_split_rejected (by omega) s)

theorem runs_lagr0 (rd : Reg) (base count : Nat) (s : State) : RunsIffReadsWritten (.lagr0 rd base count) s := by
  obtain rfl | h1 := Nat.eq_zero_or_pos count
  · exact runs_of_reads_nil rfl (exec_lagr0_empty rd base s)
  · by_cases h2 : base + count ≤ 256
    · refine ⟨fun hw => ?_, fun hw => ?_⟩
      · rw [exec_lagr0_written h1 h2 ((forall_reads_lagr0 h1 h2).mp hw)]
        split <;> exact ⟨_, rfl⟩
      · obtain ⟨b, hb, j, hj, hnone, hfault⟩ := exec_lagr0_fault h1 h2 ((forall_reads_lagr0 h1 h2).not.mp hw) rd
        refine ⟨b, base + j, mem_reads_of_forall fun P hP => ?_, hnone, hfault⟩
        obtain ⟨hx, hy⟩ := (forall_reads_lagr0 h1 h2).mp hP j hj
        obtain rfl | rfl := hb
        · exact hx
        · exact hy
    · exact runs_of_reads_nil (if_neg (by omega)) (exec_lagr0_beyond h1 (by omega) rd s)

theorem exec_runsIffReadsWritten (i : Instr) (s : State) : RunsIffReadsWritten i s := by
  cases i with
  | nop | clrerr | ldi | mov | madd | msub | mmul | mpow | mpowi | cst | pst => exact runs_of_reads_nil rfl rfl
  | minv rd rs1 => exact runs_minv rd rs1 s
  | peval rd rs1 t => exact runs_peval rd rs1 t s
  | split n t => exact runs_split n t s
  | lagr0 rd base count => exact runs_lagr0 rd base count s
  | cld rd idx => exact runs_of_loadEntry rfl (exec_cld rd idx s)
  | pldx rd idx => exact runs_of_loadEntry rfl (exec_pldx rd idx s)
  | pldy rd idx => exact runs_of_loadEntry rfl (exec_pldy rd idx s)

/-! ### Two runs of one command -/

/-- Where the first run completes, so does the second, with the same registers, and with the first's values in the entries
the first changed. -/
def AnswersAlike (s : State) (r r' : Result) : Prop :=
  ∀ t, r = .next t → ∃ t', r' = .next t' ∧ SameF t t' ∧ ∀ b k, t.entry b k ≠ s.entry b k → t'.entry b k = t.entry b k

theorem answersAlike_next {s u u' : State} (hF : SameF u u')
    (he : ∀ b k, u.entry b k = s.entry b k ∨ u'.entry b k = u.entry b k) : AnswersAlike s (.next u) (.next u') := by
  rintro t ⟨⟩
  exact ⟨u', rfl, hF, fun b k hne => (he b k).resolve_left hne⟩

theorem answersAlike_fault (s : State) (q : Fault) (r' : Result) : AnswersAlike s (.fault q) r' := fun _ h => nomatch h

/-- `windowNums` depends on nothing of the state but the window. -/
theorem windowNums_congr {s s' : State} {b : Buf} {base count : Nat}
    (h : ∀ j < count, s'.entry b (base + j) = s.entry b (base + j)) :
    windowNums s' b base count = windowNums s b base count := by
  refine List.map_congr_left fun j hj => ?_
  simp only [entryNum, h j (List.mem_range.mp hj)]

section
variable {s s' : State} (hF : SameF s s')
include hF

theorem num_eq_of_sameF (r : Reg) : s'.num r = s.num r := congrArg BitVec.toNat (hF r)

theorem answersAlike_finish (rd : Reg) (v : Elem) : AnswersAlike s (s.finish rd v) (s'.finish rd v) :=
  answersAlike_next (fun i => by simp [hF i]) fun b k => .inl (by simp)

theorem answersAlike_raise (e : ErrCode) (op : Opcode) : AnswersAlike s (s.raise e op) (s'.raise e op) :=
  answersAlike_next (fun i => by simp [hF i]) fun b k => .inl (by simp)

theorem answersAlike_loadEntry {b : Buf} {k : Nat} (he : s'.entry b k = s.entry b k) (rd : Reg) :
    AnswersAlike s (s.loadEntry rd b k) (s'.loadEntry rd b k) := by
  simp only [State.loadEntry, State.readEntry, he]
  cases s.entry b k with
  | none => exact answersAlike_fault s _ _
  | some v => exact answersAlike_finish hF rd v

theorem answersAlike_minv (rd rs1 : Reg) : AnswersAlike s (exec (.minv rd rs1) s) (exec (.minv rd rs1) s') := by
  have hnum := num_eq_of_sameF hF rs1
  by_cases h0 : s.num rs1 = 0
  · rw [exec_minv_zero h0, exec_minv_zero (hnum.trans h0)]
    exact answersAlike_raise hF _ _
  · rw [exec_minv_of_pos (by omega), exec_minv_of_pos (by omega), hnum]
    exact answersAlike_finish hF rd _

theorem answersAlike_peval (rd rs1 : Reg) (t : Nat) (hC : ∀ k < t, s'.entry .c k = s.entry .c k) :
    AnswersAlike s (exec (.peval rd rs1 t) s) (exec (.peval rd rs1 t) s') := by
  obtain rfl | h1 := Nat.eq_zero_or_pos t
  · exact answersAlike_raise hF _ _
  · by_cases hw : CoeffsWritten s t
    · rw [exec_peval_written h1 hw, exec_peval_written h1 (coeffsWritten_congr hC hw), coeffs_congr hC,
        num_eq_of_sameF hF]
      exact answersAlike_finish hF rd _
    · obtain ⟨k, -, -, hfault⟩ := exec_peval_fault h1 hw rd rs1
      rw [hfault]
      exact answersAlike_fault s _ _

theorem answersAlike_split {n t : Nat} (hok : 1 ≤ t ∧ t ≤ n ∧ n ≤ 255) (hC : ∀ k < t, s'.entry .c k = s.entry .c k) :
    AnswersAlike s (exec (.split n t) s) (exec (.split n t) s') := by
  by_cases hw : CoeffsWritten s t
  · rw [exec_split_written hok hw, exec_split_written hok (coeffsWritten_congr hC hw), coeffs_congr hC]
    refine answersAlike_next hF fun b k => ?_
    simp only [State.entry_succeed]
    cases b with
    | c => exact .inl rfl
    | x =>
      rw [entry_x_withShares, entry_x_withShares]
      by_cases hk : k < n <;> simp [hk]
    | y =>
      rw [entry_y_withShares, entry_y_withShares]
      by_cases hk : k < n <;> simp [hk]
  · obtain ⟨k, -, -, hfault⟩ := exec_split_fault hok hw
    rw [hfault]
    exact answersAlike_fault s _ _

theorem answersAlike_lagr0 (rd : Reg) {base count : Nat} (h1 : 1 ≤ count) (h2 : base + count ≤ 256)
    (hwin : ∀ j < count, s'.entry .x (base + j) = s.entry .x (base + j) ∧ s'.entry .y (base + j) = s.entry .y (base + j)) :
    AnswersAlike s (exec (.lagr0 rd base count) s) (exec (.lagr0 rd base count) s') := by
  by_cases hw : WindowWritten s base count
  · have hw' : WindowWritten s' base count := fun j hj => by
      rw [(hwin j hj).1, (hwin j hj).2]
      exact hw j hj
    rw [exec_lagr0_written h1 h2 hw, exec_lagr0_written h1 h2 hw', windowLagrange, windowLagrange,
      windowNums_congr fun j hj => (hwin j hj).1, windowNums_congr fun j hj => (hwin j hj).2]
    split
    · exact answersAlike_finish hF rd _
    · exact answersAlike_raise hF _ _
  · obtain ⟨b, -, j, -, -, hfault⟩ := exec_lagr0_fault h1 h2 hw rd
    rw [hfault]
    exact answersAlike_fault s _ _

theorem answersAlike_cst (idx : Idx) (rs1 : Reg) :
    AnswersAlike s (exec (.cst idx rs1) s) (exec (.cst idx rs1) s') := by
  rw [exec_cst, exec_cst, hF]
  refine answersAlike_next (fun i => by simp [hF i]) fun b k => ?_
  simp only [State.entry_succeed, State.entry_setEntry]
  by_cases h : b = .c ∧ k = idx.val
  · exact .inr (by rw [if_pos h, if_pos h])
  · exact .inl (if_neg h)

theorem answersAlike_pst (idx : Idx) (rs1 rs2 : Reg) :
    AnswersAlike s (exec (.pst idx rs1 rs2) s) (exec (.pst idx rs1 rs2) s') := by
  rw [exec_pst, exec_pst, hF, hF]
  refine answersAlike_next (fun i => by simp [hF i]) fun b k => ?_
  simp only [State.entry_succeed, entry_storePair]
  by_cases hy : b = .y ∧ k = idx.val
  · exact .inr (by rw [if_pos hy, if_pos hy])
  · by_cases hx : b = .x ∧ k = idx.val
    · exact .inr (by rw [if_neg hy, if_neg hy, if_pos hx, if_pos hx])
    · exact .inl (by rw [if_neg hy, if_neg hx])

theorem exec_answersAlike {i : Instr} (hreads : ∀ p ∈ i.reads, s'.entry p.1 p.2 = s.entry p.1 p.2) :
    AnswersAlike s (exec i s) (exec i s') := by
  have hnum := num_eq_of_sameF hF
  cases i with
  | nop => exact answersAlike_next hF fun b k => .inl (State.entry_succeed s b k)
  | clrerr => exact answersAlike_next hF fun b k => .inl (by simp)
  | ldi rd imm => exact answersAlike_finish hF rd _
  | mov rd rs1 =>
    rw [exec_mov, exec_mov, hF]
    exact answersAlike_finish hF rd _
  | madd rd | msub rd | mmul rd | mpow rd | mpowi rd =>
    simp only [exec_madd, exec_msub, exec_mmul, exec_mpow, exec_mpowi, hnum]
    exact answersAlike_finish hF rd _
  | minv rd rs1 => exact answersAlike_minv hF rd rs1
  | peval rd rs1 t => exact answersAlike_peval hF rd rs1 t (forall_reads_peval.mp hreads)
  | split n t =>
    by_cases hok : 1 ≤ t ∧ t ≤ n ∧ n ≤ 255
    · exact answersAlike_split hF hok ((forall_reads_split hok).mp hreads)
    · rw [exec_split_rejected (by omega), exec_split_rejected (by omega)]
      exact answersAlike_raise hF _ _
  | lagr0 rd base count =>
    obtain rfl | h1 := Nat.eq_zero_or_pos count
    · exact answersAlike_raise hF _ _
    · by_cases h2 : base + count ≤ 256
      · exact answersAlike_lagr0 hF rd h1 h2 ((forall_reads_lagr0 h1 h2).mp hreads)
      · rw [exec_lagr0_beyond h1 (by omega), exec_lagr0_beyond h1 (by omega)]
        exact answersAlike_raise hF _ _
  | cst idx rs1 => exact answersAlike_cst hF idx rs1
  | pst idx rs1 rs2 => exact answersAlike_pst hF idx rs1 rs2
  | cld rd idx => exact answersAlike_loadEntry hF (hreads (.c, idx.val) (by simp [Instr.reads])) rd
  | pldx rd idx => exact answersAlike_loadEntry hF (hreads (.x, idx.val) (by simp [Instr.reads])) rd
  | pldy rd idx => exact answersAlike_loadEntry hF (hreads (.y, idx.val) (by simp [Instr.reads])) rd

end

/-! ### The statements -/

/-- Settles O58: each command reads all its entries before it does anything else, and none is refused. -/
theorem commandRunsIffReadsWritten : Obligations.CommandRunsIffReadsWritten := by
  intro i s
  obtain ⟨hruns, hfaults⟩ := exec_runsIffReadsWritten i s
  refine ⟨fun hw => ?_, hfaults⟩
  obtain ⟨t, ht⟩ := hruns hw
  exact ⟨t, ht, exec_next_idle ht⟩

/-- Settles O59: every result of a command is a function of the registers and of the entries it reads. -/
theorem commandsReadOnlyTheirOperands : Obligations.CommandsReadOnlyTheirOperands :=
  fun _ _ _ t hF hreads ht => exec_answersAlike hF hreads t ht

end Sys2Proof.Machine
end
